-- ==== Sys2Proof/Word.lean ====
section
/-! DEFINITION. Word.lean: the types of the spec's values (00_scope.md R7, R8).
Bit 0 is the least significant bit of every value; every value is unsigned. -/

namespace Sys2Proof

/-- `u8` (R8): ChipState, command byte, data byte, `value`, the digit operand. -/
abbrev Byte := BitVec 8

/-- `u4` (R8): what one output group carries. -/
abbrev Nibble := BitVec 4

/-- A line level (R8): `false` = low = 0, `true` = high = 1. -/
abbrev Level := Bool

end Sys2Proof
end

