-- ==== Sys2Proof/Syntax.lean ====
section
/-! DEFINITION. Syntax.lean: the operations as syntax, one constructor per row of
spec/opcode_table.json, and the two kinds of encoded word (30_encoding.md). -/

namespace Sys2Proof

/-- The effective decode mode, three values (10_state.md R28). -/
inductive DecodeMode where
  | codeB
  | noDecoding
  | hex
deriving DecidableEq, Repr

/-- The decoding-mode operand `M` (30_encoding.md R65): codes 0, 1, 2 are the three modes of the
enumeration, code 3 stands for "decoding-mode values outside the three defined variants". -/
inductive ModeOperand where
  | codeB
  | noDecoding
  | hex
  | unrecognised
deriving DecidableEq, Repr

/-- The operations (R71) and the two bus words (R60, R61). `a` is the field `A`, `m` the field `M`,
`v` the field `V`, `p` the field `P` (R63, R64). -/
inductive Instr where
  /-- `UPDATE_DIGIT A, M, V, P` (R80). -/
  | updateDigit (a : Byte) (m : ModeOperand) (v : Byte) (p : Bool)
  /-- `TURN_ON` (R90). -/
  | turnOn
  /-- `TURN_OFF` (R91). -/
  | turnOff
  /-- `DECODE_TYPE` (R94). -/
  | decodeType
  /-- `SET_DECODING M` (R97). -/
  | setDecoding (m : ModeOperand)
  /-- `SET_DIGIT A` (R99). -/
  | setDigit (a : Byte)
  /-- `CTRL_XACT A` (R103). -/
  | ctrlXact (a : Byte)
  /-- `DATA_XACT A` (R104). -/
  | dataXact (a : Byte)
  /-- `BUS_CTRL`: a bus word with the mode line high, field by field (R60). -/
  | busCtrl (dc hex nd sd bank : Bool) (digit : BitVec 3)
  /-- `BUS_DATA`: a bus word with the mode line low; `dpn` is bit 7 (R61). -/
  | busData (dpn : Bool) (payload : BitVec 7)
deriving DecidableEq, Repr

/-- An encoded word, by the format the opcode table gives its row: `HOST`, the 32-bit command word
(R63), or `BUS`, the 9-bit bus word `{MODE, D[7:0]}` (R62). -/
inductive Encoded where
  | host (w : BitVec 32)
  | bus (w : BitVec 9)
deriving DecidableEq, Repr

/-- Why a command word is ILLEGAL, in the three cases of R72. -/
inductive Illegal where
  /-- `OP` is 0x00 or 0x09 to 0xFF. -/
  | unassignedOp
  /-- Bits 7:3 are not zero. -/
  | mustBeZero
  /-- A field the selected operation does not use is not zero. -/
  | unusedField
deriving DecidableEq, Repr

end Sys2Proof
end

