-- ==== Sys2Proof/WellFormed.lean ====
section
/-! DEFINITION. WellFormed.lean: which instructions are well formed for which format.

The operand widths of R64 are carried by the types of `Instr` (a `u8` is a `BitVec 8`, a `u2` mode
code one of four constructors), so no range is left to check: "any 0 to 255 accepted" (R64) and "every
operand value has a defined result" (R12). What is left is the format: the eight commands are what the
command port carries (R71), the two bus words are output words and no commands (R60, R61). -/

namespace Sys2Proof

/-- The operations of R71: what a command word can encode. -/
def Instr.isCommand : Instr → Bool
  | .updateDigit _ _ _ _ => true
  | .turnOn => true
  | .turnOff => true
  | .decodeType => true
  | .setDecoding _ => true
  | .setDigit _ => true
  | .ctrlXact _ => true
  | .dataXact _ => true
  | .busCtrl _ _ _ _ _ _ => false
  | .busData _ _ => false

/-- The bus-word rows: what a 9-bit bus word can encode (R62). -/
def Instr.isBusWord : Instr → Bool
  | .updateDigit _ _ _ _ => false
  | .turnOn => false
  | .turnOff => false
  | .decodeType => false
  | .setDecoding _ => false
  | .setDigit _ => false
  | .ctrlXact _ => false
  | .dataXact _ => false
  | .busCtrl _ _ _ _ _ _ => true
  | .busData _ _ => true

/-- The public operations (60_exceptions.md R116); the other four commands are internal. -/
def Instr.isPublic : Instr → Bool
  | .updateDigit _ _ _ _ => true
  | .turnOn => true
  | .turnOff => true
  | .decodeType => true
  | .setDecoding _ => false
  | .setDigit _ => false
  | .ctrlXact _ => false
  | .dataXact _ => false
  | .busCtrl _ _ _ _ _ _ => false
  | .busData _ _ => false

/-- The operations that send a byte unrelated to `CS` when issued directly (R116, second bullet), and
the two bus words, which do the same. -/
def Instr.isRaw : Instr → Bool
  | .updateDigit _ _ _ _ => false
  | .turnOn => false
  | .turnOff => false
  | .decodeType => false
  | .setDecoding _ => false
  | .setDigit _ => false
  | .ctrlXact _ => true
  | .dataXact _ => true
  | .busCtrl _ _ _ _ _ _ => true
  | .busData _ _ => true

/-- A word of the format its instruction has. -/
def Encoded.carries : Encoded → Instr → Bool
  | .host _, i => i.isCommand
  | .bus _, i => i.isBusWord

end Sys2Proof
end

