-- ==== Sys2Proof/Decode.lean ====
section
/-! DEFINITION. Decode.lean: from encoded words to instructions and back (30_encoding.md R60 to R76).
Decoding is total: a word gives one instruction or, for a command word, the reason it is ILLEGAL. -/

namespace Sys2Proof

/-! ## The command word's fields (R63) -/

/-- `OP`, bits 31:24. -/
def fieldOp (w : BitVec 32) : Byte := w.extractLsb' 24 8

/-- `A`, bits 23:16. -/
def fieldA (w : BitVec 32) : Byte := w.extractLsb' 16 8

/-- `V`, bits 15:8. -/
def fieldV (w : BitVec 32) : Byte := w.extractLsb' 8 8

/-- The must-be-zero field, bits 7:3. -/
def fieldZ (w : BitVec 32) : BitVec 5 := w.extractLsb' 3 5

/-- `M`, bits 2:1. -/
def fieldM (w : BitVec 32) : BitVec 2 := w.extractLsb' 1 2

/-- `P`, bit 0. -/
def fieldP (w : BitVec 32) : Bool := w.getLsbD 0

/-! ## Mode codes (R65) -/

/-- The `M` field read as an operand (R65). -/
def modeOfCode (c : BitVec 2) : ModeOperand :=
  if c = 0#2 then .codeB
  else if c = 1#2 then .noDecoding
  else if c = 2#2 then .hex
  else .unrecognised

/-- The operand's code in the `M` field (R65). -/
def codeOfMode : ModeOperand → BitVec 2
  | .codeB => 0#2
  | .noDecoding => 1#2
  | .hex => 2#2
  | .unrecognised => 3#2

/-! ## The control word's and the data word's fields (R60, R61) -/

/-- A control word from its fields: `{DC, HEX, ND, SD, BANK, DIGIT}` (R27, R60). -/
def packControl (dc hex nd sd bank : Bool) (digit : BitVec 3) : Byte :=
  BitVec.ofBool dc ++ BitVec.ofBool hex ++ BitVec.ofBool nd ++ BitVec.ofBool sd ++
    BitVec.ofBool bank ++ digit

/-- A data word from bit 7 and the bits below it (R61). -/
def packData (dpn : Bool) (payload : BitVec 7) : Byte :=
  BitVec.ofBool dpn ++ payload

/-! ## Decoding -/

/-- `i` when the must-be-zero field is zero and the operation's unused fields are (`unusedZero`), else
the reason the word is ILLEGAL (R72). -/
def whenUnusedZero (w : BitVec 32) (unusedZero : Bool) (i : Instr) : Except Illegal Instr :=
  if fieldZ w = 0#5 then
    if unusedZero then .ok i else .error .unusedField
  else .error .mustBeZero

/-- A command word decoded (R71, R72). -/
def decodeCommand (w : BitVec 32) : Except Illegal Instr :=
  if fieldOp w = 0x01#8 then
    whenUnusedZero w true (.updateDigit (fieldA w) (modeOfCode (fieldM w)) (fieldV w) (fieldP w))
  else if fieldOp w = 0x02#8 then
    whenUnusedZero w (fieldA w == 0 && fieldV w == 0 && fieldM w == 0 && !fieldP w) .turnOn
  else if fieldOp w = 0x03#8 then
    whenUnusedZero w (fieldA w == 0 && fieldV w == 0 && fieldM w == 0 && !fieldP w) .turnOff
  else if fieldOp w = 0x04#8 then
    whenUnusedZero w (fieldA w == 0 && fieldV w == 0 && fieldM w == 0 && !fieldP w) .decodeType
  else if fieldOp w = 0x05#8 then
    whenUnusedZero w (fieldA w == 0 && fieldV w == 0 && !fieldP w)
      (.setDecoding (modeOfCode (fieldM w)))
  else if fieldOp w = 0x06#8 then
    whenUnusedZero w (fieldV w == 0 && fieldM w == 0 && !fieldP w) (.setDigit (fieldA w))
  else if fieldOp w = 0x07#8 then
    whenUnusedZero w (fieldV w == 0 && fieldM w == 0 && !fieldP w) (.ctrlXact (fieldA w))
  else if fieldOp w = 0x08#8 then
    whenUnusedZero w (fieldV w == 0 && fieldM w == 0 && !fieldP w) (.dataXact (fieldA w))
  else .error .unassignedOp

/-- A bus word decoded: bit 8 selects the format, and no bus word is illegal (R62). -/
def decodeBus (w : BitVec 9) : Instr :=
  if w.getLsbD 8 then
    .busCtrl (w.getLsbD 7) (w.getLsbD 6) (w.getLsbD 5) (w.getLsbD 4) (w.getLsbD 3)
      (w.extractLsb' 0 3)
  else
    .busData (w.getLsbD 7) (w.extractLsb' 0 7)

/-- Decoding, total over both formats (R62, R76). -/
def decode : Encoded → Except Illegal Instr
  | .host w => decodeCommand w
  | .bus w => .ok (decodeBus w)

/-! ## Encoding -/

/-- A command word from its fields, bits 7:3 zero (R63). -/
def packCommand (op a v : Byte) (m : BitVec 2) (p : Bool) : BitVec 32 :=
  op ++ a ++ v ++ 0#5 ++ m ++ BitVec.ofBool p

/-- The word of an instruction (R60, R61, R71). -/
def encode : Instr → Encoded
  | .updateDigit a m v p => .host (packCommand 0x01#8 a v (codeOfMode m) p)
  | .turnOn => .host (packCommand 0x02#8 0#8 0#8 0#2 false)
  | .turnOff => .host (packCommand 0x03#8 0#8 0#8 0#2 false)
  | .decodeType => .host (packCommand 0x04#8 0#8 0#8 0#2 false)
  | .setDecoding m => .host (packCommand 0x05#8 0#8 0#8 (codeOfMode m) false)
  | .setDigit a => .host (packCommand 0x06#8 a 0#8 0#2 false)
  | .ctrlXact a => .host (packCommand 0x07#8 a 0#8 0#2 false)
  | .dataXact a => .host (packCommand 0x08#8 a 0#8 0#2 false)
  | .busCtrl dc hex nd sd bank digit => .bus (1#1 ++ packControl dc hex nd sd bank digit)
  | .busData dpn payload => .bus (0#1 ++ packData dpn payload)

/-! ## The opcode table's rows (R71): match and mask -/

/-- The match and the mask of the command row an instruction belongs to (R71); a bus word has no
command row. -/
def commandRow : Instr → Option (BitVec 32 × BitVec 32)
  | .updateDigit _ _ _ _ => some (0x01000000#32, 0xFF0000F8#32)
  | .turnOn => some (0x02000000#32, 0xFFFFFFFF#32)
  | .turnOff => some (0x03000000#32, 0xFFFFFFFF#32)
  | .decodeType => some (0x04000000#32, 0xFFFFFFFF#32)
  | .setDecoding _ => some (0x05000000#32, 0xFFFFFFF9#32)
  | .setDigit _ => some (0x06000000#32, 0xFF00FFFF#32)
  | .ctrlXact _ => some (0x07000000#32, 0xFF00FFFF#32)
  | .dataXact _ => some (0x08000000#32, 0xFF00FFFF#32)
  | .busCtrl _ _ _ _ _ _ => none
  | .busData _ _ => none

/-- "the word w selects the row iff `(w & mask) == match`" (R71). -/
def selectsRow (w : BitVec 32) (row : BitVec 32 × BitVec 32) : Bool :=
  (w &&& row.2) == row.1

/-- The eight command rows, in the table's order (R71). -/
def commandRows : List (BitVec 32 × BitVec 32) :=
  [(0x01000000#32, 0xFF0000F8#32), (0x02000000#32, 0xFFFFFFFF#32),
   (0x03000000#32, 0xFFFFFFFF#32), (0x04000000#32, 0xFFFFFFFF#32),
   (0x05000000#32, 0xFFFFFFF9#32), (0x06000000#32, 0xFF00FFFF#32),
   (0x07000000#32, 0xFF00FFFF#32), (0x08000000#32, 0xFF00FFFF#32)]

/-- Match and mask of the two bus rows, over 9 bits (R71, last sentence). -/
def busRow : Instr → Option (BitVec 9 × BitVec 9)
  | .busCtrl _ _ _ _ _ _ => some (0x100#9, 0x100#9)
  | .busData _ _ => some (0x000#9, 0x100#9)
  | .updateDigit _ _ _ _ => none
  | .turnOn => none
  | .turnOff => none
  | .decodeType => none
  | .setDecoding _ => none
  | .setDigit _ => none
  | .ctrlXact _ => none
  | .dataXact _ => none

/-! ## Words as the opcode table numbers them -/

/-- The word of `nbits` bits with the value `w`: 32 bits is a `HOST` word, 9 bits (16 in whole bytes) a
`BUS` word; any other size or a value that does not fit is no word of the table. The command port and
the bus carry a word's bits in parallel, so no byte order enters (R45). -/
def tableWord (nbits w : Nat) : Option Encoded :=
  if nbits = 32 then
    if w < 4294967296 then some (.host (BitVec.ofNat 32 w)) else none
  else if nbits = 9 ∨ nbits = 16 then
    if w < 512 then some (.bus (BitVec.ofNat 9 w)) else none
  else none

/-- The instruction decoded from a table word. -/
def decodeTableWord (nbits w : Nat) : Option Instr :=
  match tableWord nbits w with
  | none => none
  | some c =>
    match decode c with
    | .ok i => some i
    | .error _ => none

end Sys2Proof
end

