-- ==== Sys2Proof/Config.lean ====
section
/-! DEFINITION. Config.lean: the parameters of the block (00_scope.md R6). The OPEN ones are constants
without a body: no proof can see their value, so a claim holds for every admissible one. -/

namespace Sys2Proof

/-- `DC_RESET` (R6, R26, D6): the reset value of `CS[7]`, OPEN, one bit. -/
opaque Config.dcReset : Bool

/-- `T_SETTLE_MIN` (R6): 50 ns. -/
def Config.tSettleMin : Nat := 50

/-- `T_STROBE_MIN` (R6): 250 ns. -/
def Config.tStrobeMin : Nat := 250

/-- How far `T_SETTLE` lies above its bound: OPEN (R6, D11). A whole number: log entry 30. -/
opaque Config.settleExcess : Nat

/-- How far `T_STROBE` lies above its bound: OPEN (R6, D11). A whole number: log entry 30. -/
opaque Config.strobeExcess : Nat

/-- `T_SETTLE` (R6): the argument of the settle delay, any value of at least 50 ns. That it is a whole
number of nanoseconds is DESIGN CHOICE, log entry 30. -/
def Config.tSettle : Nat := Config.tSettleMin + Config.settleExcess

/-- `T_STROBE` (R6): the argument of the strobe delay, any value of at least 250 ns. That it is a whole
number of nanoseconds is DESIGN CHOICE, log entry 30. -/
def Config.tStrobe : Nat := Config.tStrobeMin + Config.strobeExcess

end Sys2Proof
end

