-- ==== Sys2Proof/Machine/State.lean ====
section
/-! DEFINITION. Machine/State.lean: the machine's state as plain data (10_state.md), its reset value
(R36), and the reasons a step can stop. -/

namespace Sys2Proof.Machine

/-- A bus event: one call of a BusAdapter primitive (20_memory.md R41). -/
inductive Event where
  /-- `SetMode(l)`, the document's `setModeLine(level)`. -/
  | setMode (l : Level)
  /-- `SetNibbles(lo, hi)`, the document's `setOutputNibblePair(low, high)`. -/
  | setNibbles (lo hi : Nibble)
  /-- `Delay(n)`, the document's `delayNanoseconds(n)`. The primitive's resolution is not in the document
  (R117): that `n` is a whole number of nanoseconds is DESIGN CHOICE, log entry 30. -/
  | delay (ns : Nat)
  /-- `SetStrobe(l)`, the document's `setWriteStrobe(level)`. -/
  | setStrobe (l : Level)
deriving DecidableEq, Repr

/-- The output latches (10_state.md R30). `none` is the spec's own "no value until first driven"
(R36): "a model gives the latch an absent value (an option type), not zero". -/
structure Lines where
  /-- `MODE`: 1 (high) = control mode, 0 (low) = data mode. -/
  mode : Option Level
  /-- `PORT_LO`: the group that carries word bits 3:0. -/
  portLo : Option Nibble
  /-- `PORT_HI`: the group that carries word bits 7:4. -/
  portHi : Option Nibble
  /-- `WR`, active low: `false` = asserted, `true` = deasserted. -/
  wr : Level
deriving DecidableEq, Repr

/-- The sequence pointer `SEQ` (10_state.md R32): idle, or the accepted command with its operands and
the index of its next bus event. -/
inductive Seq where
  | idle
  | run (cmd : Instr) (i : Nat)
deriving DecidableEq, Repr

/-- What the host does at the command port and the reset input (20_memory.md R56). -/
inductive HostAct where
  /-- Present word `c` with `CMD_VALID` until it is accepted; the accepted command is performed whole in
  one step (R32, last bullet: a command as one atomic step). -/
  | issue (c : Encoded)
  /-- Present word `c` with `CMD_VALID` until it is accepted; the accepted command's events are then
  performed one a step (R32, event by event). -/
  | start (c : Encoded)
  /-- Present nothing in this step (`CMD_VALID` = 0). -/
  | pass
  /-- Assert `RST`, or return of power after its loss (R121, R130, R131). -/
  | reset
deriving DecidableEq, Repr

/-- The machine (R33: `CS`, the latches, `SEQ`, `TR`), with two fields of the model's own. -/
structure State where
  /-- `CS`, the ChipState register (R20). -/
  cs : Byte
  /-- The four output latches (R30). -/
  lines : Lines
  /-- `TR`, the events performed since reset, oldest first (R31). -/
  tr : List Event
  /-- `SEQ` (R32). -/
  seq : Seq
  /-- The model's own history: what was delivered on `RSP[1:0]` with `RSP_VALID` since reset, oldest
  first (R66). Nothing in the machine reads it: "no result register exists" (R95). Log entry 6. -/
  responses : List (BitVec 2)
  /-- The model's own input: what the host does next, oldest first (R56). Log entry 5. -/
  host : List HostAct
deriving DecidableEq, Repr

/-- The block has no fault: "No error conditions", "There is no fault and no trap" (00_scope.md R12,
60_exceptions.md R110). So there is no constructor, nothing raises one, and that is exact. -/
inductive Fault where
deriving DecidableEq, Repr

/-- Why a step gives no next state. -/
inductive Refusal where
  /-- Raised by an arm of `exec` that has no meaning yet; safe. No arm does: every instruction has its
  meaning. -/
  | notModelled (mnemonic : String)
  /-- Raised by `step` when the sequencer, idle, is presented an ILLEGAL command word: "The sequencer
  refuses an ILLEGAL word ... A model gives such a word no meaning" (30_encoding.md R72, R12(b), R111).
  Safe. -/
  | illegalCommand (why : Illegal) (w : BitVec 32)
deriving DecidableEq, Repr

/-- The latches after reset (R36): `WR` deasserted, the others without a value. -/
def Lines.reset : Lines :=
  { mode := none, portLo := none, portHi := none, wr := true }

/-- The machine right after reset (10_state.md R36, 70_reset_and_hazards.md R130): `CS` is
`0x08 | (DC_RESET << 7)`; no event has been performed; the host presents nothing. -/
def State.reset : State :=
  { cs := 0x08#8 ||| ((BitVec.ofBool Config.dcReset).setWidth 8 <<< 7)
    lines := Lines.reset
    tr := []
    seq := .idle
    responses := []
    host := [] }

end Sys2Proof.Machine
end

