-- ==== Sys2Proof/Machine/Flags.lean ====
section
/-! DEFINITION. Machine/Flags.lean: the block has no flags and no condition codes (10_state.md R34).
"The only value that steers an operation is `DM(CS)`", derived from `CS` and never stored (R28). -/

namespace Sys2Proof.Machine

/-- `DM(c)`, the effective decode mode of byte `c` (R28). -/
def decodeModeOf (c : Byte) : DecodeMode :=
  let k := (c >>> 5) &&& 0x03#8
  if k = 0#8 then .codeB
  else if k = 2#8 then .hex
  else .noDecoding

/-- The response code of a decode mode (30_encoding.md R66, with the codes of R65). -/
def responseCode : DecodeMode → BitVec 2
  | .codeB => 0#2
  | .noDecoding => 1#2
  | .hex => 2#2

/-- `RSP[1:0]`: "a combinational function of `CS[6:5]`" (42_decode_query.md R95). -/
def State.rspCode (s : State) : BitVec 2 := responseCode (decodeModeOf s.cs)

/-- `BUSY`: `SEQ != IDLE` (10_state.md R32). -/
def State.busy (s : State) : Bool := s.seq != .idle

/-- `CMD_READY == (SEQ == IDLE)` (20_memory.md R56). -/
def State.cmdReady (s : State) : Bool := s.seq == .idle

end Sys2Proof.Machine
end

