-- ==== Sys2Proof/Machine/Operands.lean ====
section
/-! DEFINITION. Machine/Operands.lean: what the operations compute from their operands and `CS`: the
fields of `CS`, the mutators of the chip-state encoder, the data byte and the nibble split. -/

namespace Sys2Proof.Machine

/-! ## The fields of ChipState (10_state.md R20 to R27) -/

/-- `DIGIT = CS & 0x07` (R21, R27). -/
def csDigit (c : Byte) : BitVec 3 := c.extractLsb' 0 3

/-- `BANK = (CS >> 3) & 1`: A = 1, B = 0 (R22). -/
def csBank (c : Byte) : Bool := c.getLsbD 3

/-- `SD = (CS >> 4) & 1`: operating = 1, shutdown = 0 (R23). -/
def csSd (c : Byte) : Bool := c.getLsbD 4

/-- `ND = (CS >> 5) & 1`: decode = 0, no-decode = 1 (R24). -/
def csNd (c : Byte) : Bool := c.getLsbD 5

/-- `HEX = (CS >> 6) & 1`: hex = 1, Code-B = 0 (R25). -/
def csHex (c : Byte) : Bool := c.getLsbD 6

/-- `DC = (CS >> 7) & 1` (R26). -/
def csDc (c : Byte) : Bool := c.getLsbD 7

/-! ## The mutators (43_state_setters.md, 41_power.md) -/

/-- `setdec(c, M)`: clear bits 6 and 5, then the arm of the mode (R97); the unrecognised mode takes the
NoDecoding arm (R98). -/
def setdec (c : Byte) (m : ModeOperand) : Byte :=
  let c1 := c &&& 0x9F#8
  match m with
  | .noDecoding => c1 ||| 0x20#8
  | .hex => c1 ||| 0x40#8
  | .codeB => c1
  | .unrecognised => c1 ||| 0x20#8

/-- `(c & 0xF8) | (A & 0x07)` (R99, R67). -/
def setdigit (c a : Byte) : Byte := (c &&& 0xF8#8) ||| (a &&& 0x07#8)

/-- `c | 0x10`: operating (R90). -/
def setOperating (c : Byte) : Byte := c ||| 0x10#8

/-- `c & 0xEF`: shutdown (R91). -/
def setShutdown (c : Byte) : Byte := c &&& 0xEF#8

/-! ## The data byte (40_update_digit.md) -/

/-- `DPB = (~P) << 7` as a byte (R69, R83). -/
def dpBit (p : Bool) : Byte := (BitVec.ofBool (!p)).setWidth 8 <<< 7

/-- `databyte(mode, V, P)` (R82 to R86). -/
def databyte (mode : DecodeMode) (v : Byte) (p : Bool) : Byte :=
  match mode with
  | .codeB => if v = 0#8 then 0x0F#8 ||| dpBit p else (v &&& 0x0F#8) ||| dpBit p
  | .hex => (v &&& 0x0F#8) ||| dpBit p
  | .noDecoding => v ||| dpBit p

/-! ## The nibble pair (20_memory.md R45) -/

/-- `b & 0x0F`, carried on `PORT_LO`. -/
def lowNibble (b : Byte) : Nibble := b.extractLsb' 0 4

/-- `(b >> 4) & 0x0F`, carried on `PORT_HI`. -/
def highNibble (b : Byte) : Nibble := b.extractLsb' 4 4

/-- `(hi << 4) | lo` (R51). -/
def joinNibbles (lo hi : Nibble) : Byte := hi ++ lo

end Sys2Proof.Machine
end

