-- ==== Sys2Proof/Machine/Ops.lean ====
section
/-! DEFINITION. Machine/Ops.lean: the named operations over the state: `CS <- v`, `Emit`, `BusWrite`,
`return` and reset (00_scope.md R11).

There is no operation for taking an exception or returning from one: "the block raises no exception"
(R11, 60_exceptions.md R110), "no state is ever saved, no mode changes, no vector is read" (R114), "no trap
return" (R115). The one asynchronous input is reset, `takeReset`. -/

namespace Sys2Proof.Machine

/-- `CS <- v`, all 8 bits (R11). -/
def writeCs (v : Byte) (s : State) : State := { s with cs := v }

/-- Move the sequence pointer (R32). -/
def setSeq (q : Seq) (s : State) : State := { s with seq := q }

/-- Replace what the host does next (the model's input). -/
def setHost (h : List HostAct) (s : State) : State := { s with host := h }

/-- `return v`: deliver `v` on the response port (R11, R66). -/
def deliver (v : BitVec 2) (s : State) : State := { s with responses := s.responses ++ [v] }

/-- What an event does to the latches (20_memory.md R41). -/
def applyEvent (l : Lines) : Event → Lines
  | .setNibbles lo hi => { l with portLo := some lo, portHi := some hi }
  | .setMode v => { l with mode := some v }
  | .setStrobe v => { l with wr := v }
  | .delay _ => l

/-- `Emit(e)`: append `e` to `TR` and apply its effect to the latches (R42). -/
def emit (e : Event) (s : State) : State :=
  { s with tr := s.tr ++ [e], lines := applyEvent s.lines e }

/-- Events performed one after another, in order (R42). -/
def emitAll : List Event → State → State
  | [], s => s
  | e :: es, s => emitAll es (emit e s)

/-- The six events of `BusWrite(m, b)`, in order (44_bus_transactions.md R102). -/
def busEvents (m : Level) (b : Byte) : List Event :=
  [.setMode m,
   .setNibbles (lowNibble b) (highNibble b),
   .delay Config.tSettle,
   .setStrobe false,
   .delay Config.tStrobe,
   .setStrobe true]

/-- `BusWrite(m, b)`, one bus transaction (R102): control with `m` high, data with `m` low (R44). -/
def busWrite (m : Level) (b : Byte) (s : State) : State := emitAll (busEvents m b) s

/-- The eager push of a setter (43_state_setters.md R96): `CS <- c`, then one control transaction that
carries the whole of `CS`. -/
def pushChipState (c : Byte) (s : State) : State :=
  let s1 := writeCs c s
  busWrite true s1.cs s1

/-- Reset, at any moment (70_reset_and_hazards.md R130, R131): a command in progress is abandoned and
every piece of state takes its reset value; the host goes on with `rest`. -/
def takeReset (rest : List HostAct) : State := setHost rest State.reset

end Sys2Proof.Machine
end

