-- ==== Sys2Proof/Machine/BusWords.lean ====
section
/-! DEFINITION. Machine/BusWords.lean: the two bus-word rows of the opcode table (30_encoding.md R60 to
R62). A bus word is "an output word on the display bus, not a command"; what the spec gives it is the
transaction that carries it (R102), and that is its meaning here. DESIGN CHOICE, log entry 7. -/

namespace Sys2Proof.Machine

/-- `BUS_CTRL` (R60): the control transaction whose byte is `{DC, HEX, ND, SD, BANK, DIGIT}`. -/
def execBusCtrl (dc hex nd sd bank : Bool) (digit : BitVec 3) (s : State) :
    Host.Outcome State Fault Refusal :=
  .next (busWrite true (packControl dc hex nd sd bank digit) s)

/-- `BUS_DATA` (R61): the data transaction whose byte is bit 7 and the payload below it. -/
def execBusData (dpn : Bool) (payload : BitVec 7) (s : State) :
    Host.Outcome State Fault Refusal :=
  .next (busWrite false (packData dpn payload) s)

end Sys2Proof.Machine
end

