-- ==== Sys2Proof/Machine/Digit.lean ====
section
/-! DEFINITION. Machine/Digit.lean: UPDATE_DIGIT (40_update_digit.md). -/

namespace Sys2Proof.Machine

/-- `UPDATE_DIGIT A, M, V, P` (R80): (a) the decoding and its control transaction, (b) the digit and its
control transaction, (c) the data byte under the effective mode of the `CS` that (b) left (R81, R82). -/
def execUpdateDigit (a : Byte) (m : ModeOperand) (v : Byte) (p : Bool) (s : State) :
    Host.Outcome State Fault Refusal :=
  let s1 := pushChipState (setdec s.cs m) s
  let s2 := pushChipState (setdigit s1.cs a) s1
  .next (busWrite false (databyte (decodeModeOf s2.cs) v p) s2)

end Sys2Proof.Machine
end

