-- ==== Sys2Proof/Machine/Power.lean ====
section
/-! DEFINITION. Machine/Power.lean: TURN_ON and TURN_OFF (41_power.md). -/

namespace Sys2Proof.Machine

/-- `TURN_ON` (R90): `CS <- CS | 0x10`, one control transaction carrying the new `CS`. -/
def execTurnOn (s : State) : Host.Outcome State Fault Refusal :=
  .next (pushChipState (setOperating s.cs) s)

/-- `TURN_OFF` (R91): `CS <- CS & 0xEF`, one control transaction carrying the new `CS`. -/
def execTurnOff (s : State) : Host.Outcome State Fault Refusal :=
  .next (pushChipState (setShutdown s.cs) s)

end Sys2Proof.Machine
end

