-- ==== Sys2Proof/Machine/Query.lean ====
section
/-! DEFINITION. Machine/Query.lean: DECODE_TYPE (42_decode_query.md). -/

namespace Sys2Proof.Machine

/-- `DECODE_TYPE` (R94): deliver `DM(CS)` on the response port; no event, no other write. -/
def execDecodeType (s : State) : Host.Outcome State Fault Refusal :=
  .next (deliver s.rspCode s)

end Sys2Proof.Machine
end

