-- ==== Sys2Proof/Machine/Setters.lean ====
section
/-! DEFINITION. Machine/Setters.lean: SET_DECODING and SET_DIGIT (43_state_setters.md). -/

namespace Sys2Proof.Machine

/-- `SET_DECODING M` (R97, R98): the decode bits, then one control transaction. -/
def execSetDecoding (m : ModeOperand) (s : State) : Host.Outcome State Fault Refusal :=
  .next (pushChipState (setdec s.cs m) s)

/-- `SET_DIGIT A` (R99): the low three bits, then one control transaction. -/
def execSetDigit (a : Byte) (s : State) : Host.Outcome State Fault Refusal :=
  .next (pushChipState (setdigit s.cs a) s)

end Sys2Proof.Machine
end

