-- ==== Sys2Proof/Machine/Transactions.lean ====
section
/-! DEFINITION. Machine/Transactions.lean: CTRL_XACT and DATA_XACT (44_bus_transactions.md). -/

namespace Sys2Proof.Machine

/-- `CTRL_XACT A` (R103): `BusWrite(1, A)`; `CS` is neither read nor changed. -/
def execCtrlXact (a : Byte) (s : State) : Host.Outcome State Fault Refusal :=
  .next (busWrite true a s)

/-- `DATA_XACT A` (R104): `BusWrite(0, A)`; `CS` is neither read nor changed. -/
def execDataXact (a : Byte) (s : State) : Host.Outcome State Fault Refusal :=
  .next (busWrite false a s)

end Sys2Proof.Machine
end

