-- ==== Sys2Proof/Machine/Dispatch.lean ====
section
/-! DEFINITION. Machine/Dispatch.lean: one arm per constructor of Instr. exec performs a whole command
(10_state.md R32, last bullet); step calls it at SEQ = IDLE only (20_memory.md R56). -/

namespace Sys2Proof.Machine

def exec (i : Instr) (s : State) : Host.Outcome State Fault Refusal :=
  match i with
  | .updateDigit a m v p => Sys2Proof.Machine.execUpdateDigit a m v p s
  | .turnOn => Sys2Proof.Machine.execTurnOn s
  | .turnOff => Sys2Proof.Machine.execTurnOff s
  | .decodeType => Sys2Proof.Machine.execDecodeType s
  | .setDecoding m => Sys2Proof.Machine.execSetDecoding m s
  | .setDigit a => Sys2Proof.Machine.execSetDigit a s
  | .ctrlXact a => Sys2Proof.Machine.execCtrlXact a s
  | .dataXact a => Sys2Proof.Machine.execDataXact a s
  | .busCtrl dc hex nd sd bank digit => Sys2Proof.Machine.execBusCtrl dc hex nd sd bank digit s
  | .busData dpn payload => Sys2Proof.Machine.execBusData dpn payload s

end Sys2Proof.Machine
end

