-- ==== Sys2Proof/Machine/Sequencer.lean ====
section
/-! DEFINITION. Machine/Sequencer.lean: the event-level sequencer (10_state.md R32): a command is accepted
at IDLE, then each step performs the event at index `i`; after the last one SEQ is IDLE again. -/

namespace Sys2Proof.Machine

/-- The mutation of `CS` that belongs to a transaction and takes effect before its first event (R81). -/
inductive CsChange where
  | keep
  | decoding (m : ModeOperand)
  | digit (a : Byte)
  | operating
  | shutdown
deriving DecidableEq, Repr

/-- The byte a transaction carries. -/
inductive Carried where
  /-- The whole of `CS` after the mutation (43_state_setters.md R96). -/
  | chipState
  /-- The command's own byte (R103, R104). -/
  | given (b : Byte)
  /-- The data byte under the effective mode of the current `CS` (R82). -/
  | dataByte (v : Byte) (p : Bool)
deriving DecidableEq, Repr

/-- One transaction of a command: its mutation, its mode level and its byte. -/
structure Part where
  change : CsChange
  level : Level
  carried : Carried
deriving DecidableEq, Repr

/-- A mutation applied to `CS`. -/
def changeCs (c : Byte) : CsChange → Byte
  | .keep => c
  | .decoding m => setdec c m
  | .digit a => setdigit c a
  | .operating => setOperating c
  | .shutdown => setShutdown c

/-- The byte carried, given the current `CS`. -/
def carriedByte (c : Byte) : Carried → Byte
  | .chipState => c
  | .given b => b
  | .dataByte v p => databyte (decodeModeOf c) v p

/-- The transactions of a command, in order (R75, 20_memory.md R47): three for UPDATE_DIGIT, none for
DECODE_TYPE, one for every other. -/
def parts : Instr → List Part
  | .updateDigit a m v p =>
    [⟨.decoding m, true, .chipState⟩, ⟨.digit a, true, .chipState⟩, ⟨.keep, false, .dataByte v p⟩]
  | .turnOn => [⟨.operating, true, .chipState⟩]
  | .turnOff => [⟨.shutdown, true, .chipState⟩]
  | .decodeType => []
  | .setDecoding m => [⟨.decoding m, true, .chipState⟩]
  | .setDigit a => [⟨.digit a, true, .chipState⟩]
  | .ctrlXact a => [⟨.keep, true, .given a⟩]
  | .dataXact a => [⟨.keep, false, .given a⟩]
  | .busCtrl dc hex nd sd bank digit =>
    [⟨.keep, true, .given (packControl dc hex nd sd bank digit)⟩]
  | .busData dpn payload => [⟨.keep, false, .given (packData dpn payload)⟩]

/-- The length of a command's event list: six a transaction (R102). -/
def eventCount (i : Instr) : Nat := 6 * (parts i).length

/-- Accept a command at IDLE (R32, R56): DECODE_TYPE "has an empty event list: it returns its value and
`SEQ` stays `IDLE`"; any other command starts at event 0. -/
def acceptCommand (i : Instr) (s : State) : State :=
  match parts i with
  | [] => deliver s.rspCode s
  | _ :: _ => setSeq (.run i 0) s

/-- The word a refusal names: the command word itself. (No bus word is illegal, R62, so the second arm is
never asked for.) -/
def refusedWord : Encoded → BitVec 32
  | .host w => w
  | .bus w => w.setWidth 32

/-- The pointer after event `i` (R32): `i + 1`, and IDLE after the last event. -/
def nextSeq (cmd : Instr) (i : Nat) : Seq :=
  if i + 1 < eventCount cmd then .run cmd (i + 1) else .idle

/-- Perform event `k` of a part's six. -/
def emitPartEvent (part : Part) (k : Nat) (s : State) : State :=
  match (busEvents part.level (carriedByte s.cs part.carried))[k]? with
  | some e => emit e s
  | none => s

/-- Perform event `i` of the running command `cmd` and advance the pointer (R32). The mutation of a
transaction lands in the step of its first event, before the event (R81). A pointer past the event list
(R32 excludes it, no step reaches it) ends the command. -/
def eventStep (cmd : Instr) (i : Nat) (s : State) : State :=
  match (parts cmd)[i / 6]? with
  | none => setSeq .idle s
  | some part =>
    let s1 := if i % 6 = 0 then writeCs (changeCs s.cs part.change) s else s
    setSeq (nextSeq cmd i) (emitPartEvent part (i % 6) s1)

end Sys2Proof.Machine
end

