-- ==== Sys2Proof/Machine/Step.lean ====
section
/-! DEFINITION. Machine/Step.lean: one step of the machine and the placing of a word where the next step
takes it. -/

namespace Sys2Proof.Machine

/-- The word `c` presented at IDLE and performed whole (R32, R56); an ILLEGAL word is refused (R72). -/
def runWhole (c : Encoded) (s : State) : Host.Outcome State Fault Refusal :=
  match decode c with
  | .ok i => exec i s
  | .error why => .refused (.illegalCommand why (refusedWord c))

/-- The word `c` presented at IDLE and accepted, its events to follow (R32, R56); an ILLEGAL word is
refused (R72). -/
def runByEvents (c : Encoded) (s : State) : Host.Outcome State Fault Refusal :=
  match decode c with
  | .ok i => .next (acceptCommand i s)
  | .error why => .refused (.illegalCommand why (refusedWord c))

/-- One step (20_memory.md R56, 10_state.md R32). Reset wins over everything (60_exceptions.md R113). While a
command runs the sequencer performs its next event and the host's word waits; at IDLE the host's word is
accepted; with nothing presented nothing happens. -/
def step (s : State) : Host.Outcome State Fault Refusal :=
  match s.host with
  | .reset :: rest => .next (takeReset rest)
  | .pass :: rest =>
    match s.seq with
    | .run cmd i => .next (eventStep cmd i (setHost rest s))
    | .idle => .next (setHost rest s)
  | .issue c :: rest =>
    match s.seq with
    | .run cmd i => .next (eventStep cmd i s)
    | .idle => runWhole c (setHost rest s)
  | .start c :: rest =>
    match s.seq with
    | .run cmd i => .next (eventStep cmd i s)
    | .idle => runByEvents c (setHost rest s)
  | [] =>
    match s.seq with
    | .run cmd i => .next (eventStep cmd i s)
    | .idle => .next s

/-- `s` with the table word presented next at an idle command port, so that the very next step accepts it
and performs it whole. A value that is no word of the table is presented as the all-zero command word,
which is ILLEGAL (R72). -/
def State.withFetchWord (s : State) (nbits w : Nat) : State :=
  match tableWord nbits w with
  | some c => { s with seq := .idle, host := .issue c :: s.host }
  | none => { s with seq := .idle, host := .issue (.host 0#32) :: s.host }

end Sys2Proof.Machine
end

