-- ==== Sys2Proof/Machine/Observer.lean ====
section
/-! DEFINITION. Machine/Observer.lean: what an observer of the lines reads from the trace: the transaction
list `TX(TR)` (20_memory.md R51) and the display shadow (R52). Functions of `TR`, no state of the block.
The shadow is the spec's test aid: "a model must not use it to prove a claim about the chip". -/

namespace Sys2Proof.Machine

/-- `TX(TR)` (R51): the trace cut into groups of six events of a transaction's shape; `none` where it is
no whole number of them. -/
def txView : List Event → Option (List (Level × Byte))
  | [] => some []
  | .setMode m :: .setNibbles lo hi :: .delay _ :: .setStrobe false :: .delay _ ::
      .setStrobe true :: rest => (txView rest).map fun txs => (m, joinNibbles lo hi) :: txs
  | _ => none

/-- The byte of the last control transaction of a list, if there is one. -/
def lastControl : List (Level × Byte) → Option Byte
  | [] => none
  | (m, b) :: rest =>
    match lastControl rest with
    | some c => some c
    | none => if m then some b else none

/-! ## The display shadow (R52)

`DISP[bank][digit]` is a list of (address, byte) in one canonical form, address `8 * bank + digit`,
addresses strictly rising; an unlisted address has no value. -/

/-- The shadow's state: `CW` and `DISP`. -/
structure Shadow where
  cw : Option Byte
  disp : List Host.Cell
deriving DecidableEq, Repr

/-- After reset: "none after reset", "all none" (R52). -/
def Shadow.reset : Shadow := { cw := none, disp := [] }

/-- The address of `DISP[bank][digit]`. -/
def dispAddress (bank : Bool) (digit : BitVec 3) : Nat := 8 * bank.toNat + digit.toNat

/-- The cell a data word goes to under control word `c`: `DISP[c[3]][c[2:0]]` (R52). -/
def dispTarget (c : Byte) : Nat := dispAddress (csBank c) (csDigit c)

/-- Read a cell; an unlisted one has no value. -/
def cellRead (a : Nat) : List Host.Cell → Option Byte
  | [] => none
  | (k, b) :: rest => if a = k then some b else cellRead a rest

/-- Write a cell, keeping the canonical form. -/
def cellWrite (a : Nat) (v : Byte) : List Host.Cell → List Host.Cell
  | [] => [(a, v)]
  | (k, b) :: rest =>
    if a < k then (a, v) :: (k, b) :: rest
    else if a = k then (a, v) :: rest
    else (k, b) :: cellWrite a v rest

/-- Every address of the list lies above `a`. -/
def cellsAbove (a : Nat) : List Host.Cell → Bool
  | [] => true
  | (k, _) :: rest => decide (a < k) && cellsAbove a rest

/-- The canonical form: strictly rising addresses. -/
def cellsRising : List Host.Cell → Bool
  | [] => true
  | (k, _) :: rest => cellsAbove k rest && cellsRising rest

/-- Every address is one of the sixteen cells (two banks of eight digits). -/
def cellsInRange : List Host.Cell → Bool
  | [] => true
  | (k, _) :: rest => decide (k < 16) && cellsInRange rest

/-- The shadow's memory is in canonical form. -/
def Memory.wf (cells : List Host.Cell) : Bool := cellsRising cells && cellsInRange cells

/-- One transaction seen (R52); `none` where the observer refuses the run (a data word before any control
word). -/
def shadowStep (h : Shadow) (tx : Level × Byte) : Option Shadow :=
  if tx.1 then some { h with cw := some tx.2 }
  else
    match h.cw with
    | none => none
    | some c => some { h with disp := cellWrite (dispTarget c) tx.2 h.disp }

/-- A list of transactions seen, oldest first. -/
def shadowRun (h : Shadow) : List (Level × Byte) → Option Shadow
  | [] => some h
  | tx :: rest =>
    match shadowStep h tx with
    | none => none
    | some h' => shadowRun h' rest

/-- The shadow of a trace, from reset. -/
def shadowOf (tr : List Event) : Option Shadow :=
  match txView tr with
  | none => none
  | some txs => shadowRun Shadow.reset txs

end Sys2Proof.Machine
end

