-- ==== Sys2Proof/Safety.lean ====
section
/-! DEFINITION. Safety.lean: the terms the claims use: a bus transaction written out from R102, the timing
a trace must keep (R105), and the invariant of a safe run. -/

namespace Sys2Proof.Safety

open Sys2Proof.Machine

/-! ## A transaction, written out from the rules -/

/-- The nibble `b & 0x0F` (R45, R102). -/
def low (b : Byte) : Nibble := (b &&& 0x0F#8).setWidth 4

/-- The nibble `(b >> 4) & 0x0F` (R45, R102). -/
def high (b : Byte) : Nibble := ((b >>> 4) &&& 0x0F#8).setWidth 4

/-- The six events of `BusWrite(m, b)` (R102). -/
def transaction (m : Level) (b : Byte) : List Event :=
  [.setMode m, .setNibbles (low b) (high b), .delay Config.tSettle, .setStrobe false,
   .delay Config.tStrobe, .setStrobe true]

/-- What the latches keep after a transaction: `MODE = m`, `PORT_LO = b[3:0]`, `PORT_HI = b[7:4]`,
`WR = 1` (R106). -/
def linesAfter (m : Level) (b : Byte) : Lines :=
  { mode := some m, portLo := some (low b), portHi := some (high b), wr := true }

/-- `s` after one transaction and nothing else. -/
def afterTransaction (m : Level) (b : Byte) (s : State) : State :=
  { s with tr := s.tr ++ transaction m b, lines := linesAfter m b }

/-- The events of a list of transactions, one after another (R51). -/
def transactions : List (Level × Byte) → List Event
  | [] => []
  | (m, b) :: rest => transaction m b ++ transactions rest

/-- `CS[6:5]` in place after set_decoding: `0b00`, `0b01`, `0b10`, and `0b01` for code 3 (R65, R70). -/
def modeBits : ModeOperand → Byte
  | .codeB => 0x00#8
  | .noDecoding => 0x20#8
  | .hex => 0x40#8
  | .unrecognised => 0x20#8

/-- The effective mode after set_decoding (R29, R98). -/
def effectiveMode : ModeOperand → DecodeMode
  | .codeB => .codeB
  | .noDecoding => .noDecoding
  | .hex => .hex
  | .unrecognised => .noDecoding

/-- The mode levels of the transactions an operation performs, in order (R47): high for control, low for
data. -/
def transactionKinds : Instr → List Level
  | .updateDigit _ _ _ _ => [true, true, false]
  | .turnOn => [true]
  | .turnOff => [true]
  | .decodeType => []
  | .setDecoding _ => [true]
  | .setDigit _ => [true]
  | .ctrlXact _ => [true]
  | .dataXact _ => [false]
  | .busCtrl _ _ _ _ _ _ => [true]
  | .busData _ _ => [false]

/-! ## The events a running command has left, written out from R32, R81 and R102 -/

/-- `CS` as event `i` of a command sees it, `part` being the transaction event `i` lies in: the mutation
takes effect before the transaction's first event (R81; that it lands in the step of that event is the
model's choice, log entry 11). -/
def chipStateAt (part : Part) (i : Nat) (c : Byte) : Byte :=
  if i % 6 = 0 then changeCs c part.change else c

/-- The events of whole transactions one after another, each after its mutation of `CS` (R81, R102). -/
def eventsOf (c : Byte) : List Part → List Event
  | [] => []
  | part :: rest =>
    transaction part.level (carriedByte (changeCs c part.change) part.carried) ++
      eventsOf (changeCs c part.change) rest

/-- `CS` after the mutations of whole transactions. -/
def chipStateAfter (c : Byte) : List Part → Byte
  | [] => c
  | part :: rest => chipStateAfter (changeCs c part.change) rest

/-- The events `cmd` has left at index `i` when `CS` is `c` (R32): what is left of the transaction that
event `i` lies in, then every later transaction whole. -/
def eventsLeft (cmd : Instr) (i : Nat) (c : Byte) : List Event :=
  match (parts cmd).drop (i / 6) with
  | [] => []
  | part :: rest =>
    (transaction part.level (carriedByte (chipStateAt part i c) part.carried)).drop (i % 6) ++
      eventsOf (chipStateAt part i c) rest

/-- `CS` when those events have been performed. -/
def chipStateAtEnd (cmd : Instr) (i : Nat) (c : Byte) : Byte :=
  match (parts cmd).drop (i / 6) with
  | [] => c
  | part :: rest => chipStateAfter (chipStateAt part i c) rest

/-- `n` steps, stopping at the first fault or refusal. -/
def stepN : Nat → State → Host.Outcome State Fault Refusal
  | 0, s => .next s
  | n + 1, s =>
    match step s with
    | .next t => stepN n t
    | .fault r => .fault r
    | .refused r => .refused r

/-! ## Timing (44_bus_transactions.md R105)

A trace keeps the bounds when, counting only the `Delay` arguments (the least time that can have passed,
R42), every strobe falls 50 ns or more after the last `SetMode` and `SetNibbles` and rises 250 ns or more
after it fell. -/

/-- Least time passed since the last `SetMode`, the last `SetNibbles`, and the strobe's fall. -/
structure Elapsed where
  sinceMode : Nat
  sinceNibbles : Nat
  lowFor : Option Nat
deriving DecidableEq, Repr

/-- Nothing driven yet. -/
def Elapsed.start : Elapsed := { sinceMode := 0, sinceNibbles := 0, lowFor := none }

/-- The trace keeps the bounds of R105 from here on. -/
def timedFrom (c : Elapsed) : List Event → Bool
  | [] => true
  | .setMode _ :: rest => timedFrom { c with sinceMode := 0 } rest
  | .setNibbles _ _ :: rest => timedFrom { c with sinceNibbles := 0 } rest
  | .delay n :: rest =>
    timedFrom
      { sinceMode := c.sinceMode + n
        sinceNibbles := c.sinceNibbles + n
        lowFor := c.lowFor.map (· + n) } rest
  | .setStrobe false :: rest =>
    decide (50 ≤ c.sinceMode) && decide (50 ≤ c.sinceNibbles) &&
      timedFrom { c with lowFor := some 0 } rest
  | .setStrobe true :: rest =>
    (match c.lowFor with
     | none => true
     | some t => decide (250 ≤ t)) && timedFrom { c with lowFor := none } rest

/-- The trace keeps the bounds of R105. -/
def timed (tr : List Event) : Bool := timedFrom Elapsed.start tr

/-! ## The invariant -/

/-- `CS` as every reachable state has it: bank A (R22), bit 7 at its reset value (R26), never the pattern
`0b11` in bits 6:5 (R29). -/
def ChipStateLegal (c : Byte) : Prop :=
  csBank c = true ∧ csDc c = Config.dcReset ∧ ¬(csHex c = true ∧ csNd c = true)

/-- `0 <= i < len` (R32). -/
def PointerInRange : Seq → Prop
  | .idle => True
  | .run cmd i => i < eventCount cmd

/-- The events of the transaction in progress that have been performed: the first `i mod 6` of it. -/
def inProgress (s : State) : List Event :=
  match s.seq with
  | .idle => []
  | .run cmd i =>
    match (parts cmd)[i / 6]? with
    | none => []
    | some part => (transaction part.level (carriedByte s.cs part.carried)).take (i % 6)

/-- The trace is whole transactions and then the part of the one in progress (R51, R53). -/
def TraceAtPointer (s : State) : Prop := ∃ txs, s.tr = transactions txs ++ inProgress s

/-- Each group holds the level last driven on it (R30, R42). -/
def LinesFollowTrace (s : State) : Prop := s.lines = s.tr.foldl applyEvent Lines.reset

/-- What every reachable state satisfies. -/
structure SafeState (s : State) : Prop where
  chipState : ChipStateLegal s.cs
  pointer : PointerInRange s.seq
  trace : TraceAtPointer s
  lines : LinesFollowTrace s

/-- The host does not assert reset in this step. -/
def noReset : List HostAct → Bool
  | .reset :: _ => false
  | _ => true

/-- The host presents a word and holds it, or does nothing more: what it does next is neither to let a
step pass nor to assert reset. -/
def waitsForReady : List HostAct → Bool
  | [] => true
  | .issue _ :: _ => true
  | .start _ :: _ => true
  | .pass :: _ => false
  | .reset :: _ => false

/-- "the last control word equals `CS`" wherever one has been sent (60_exceptions.md R116): the chip was
told `CS`. -/
def ToldChipState (s : State) : Prop :=
  ∃ txs, txView s.tr = some txs ∧ (lastControl txs = none ∨ lastControl txs = some s.cs)

end Sys2Proof.Safety
end

