-- ==== Sys2Proof/Certificates/Slice0/Obligations.lean ====
section
/-! DEFINITION. Obligations.lean: the statements about the model, each from the rules of spec/ it names. -/

open Sys2Proof Sys2Proof.Machine Sys2Proof.Safety

/-! ## Encoding (30_encoding.md) -/

/-- R76 (an inference the spec marks as its own): "encoding an operation and decoding the word gives the
operation back", for every instruction and every operand value; the word has the instruction's format. -/
def Obligations.DecodeOfEncodeIsTheInstruction : Prop :=
  ∀ i : Instr, decode (encode i) = .ok i ∧ (encode i).carries i = true

/-- R76 (marked as the spec's inference): "decoding a legal word and encoding the result gives the word
back", for both formats. -/
def Obligations.EncodeOfDecodeIsTheWord : Prop :=
  ∀ (c : Encoded) (i : Instr), decode c = .ok i → encode i = c

/-- R71, R76: a command word decodes iff it selects a row, it selects the row of the instruction it
decodes to, and no word selects two rows. -/
def Obligations.CommandWordDecodesIffItSelectsOneRow : Prop :=
  ∀ w : BitVec 32,
    ((∃ i, decode (.host w) = .ok i) ↔ ∃ row ∈ commandRows, selectsRow w row = true) ∧
    (∀ i, decode (.host w) = .ok i → ∃ row, commandRow i = some row ∧ selectsRow w row = true) ∧
    (∀ row ∈ commandRows, ∀ row' ∈ commandRows,
      selectsRow w row = true → selectsRow w row' = true → row = row')

/-- R72 (the spec's decision D2): a word is ILLEGAL exactly when `OP` is unassigned, bits 7:3 are not zero,
or a field the selected operation does not use is not zero. -/
def Obligations.IllegalWordsAreThoseOfTheThreeCases : Prop :=
  ∀ w : BitVec 32, (∃ why, decode (.host w) = .error why) ↔
    (fieldOp w = 0x00#8 ∨ 0x09 ≤ (fieldOp w).toNat) ∨
    fieldZ w ≠ 0#5 ∨
    ((fieldOp w = 0x02#8 ∨ fieldOp w = 0x03#8 ∨ fieldOp w = 0x04#8) ∧
      (fieldA w ≠ 0#8 ∨ fieldV w ≠ 0#8 ∨ fieldM w ≠ 0#2 ∨ fieldP w = true)) ∨
    (fieldOp w = 0x05#8 ∧ (fieldA w ≠ 0#8 ∨ fieldV w ≠ 0#8 ∨ fieldP w = true)) ∨
    ((fieldOp w = 0x06#8 ∨ fieldOp w = 0x07#8 ∨ fieldOp w = 0x08#8) ∧
      (fieldV w ≠ 0#8 ∨ fieldM w ≠ 0#2 ∨ fieldP w = true))

/-- The words of 95_test_vectors.md section 2.6, one for each instruction and several ILLEGAL ones. -/
def Obligations.SampleWordsDecodeAsTabulated : Prop :=
  decode (.host 0x01031A04#32) = .ok (.updateDigit 3#8 .hex 0x1A#8 false) ∧
  decode (.host 0x01FFFF07#32) = .ok (.updateDigit 255#8 .unrecognised 0xFF#8 true) ∧
  decode (.host 0x02000000#32) = .ok .turnOn ∧
  decode (.host 0x03000000#32) = .ok .turnOff ∧
  decode (.host 0x04000000#32) = .ok .decodeType ∧
  decode (.host 0x05000004#32) = .ok (.setDecoding .hex) ∧
  decode (.host 0x06030000#32) = .ok (.setDigit 3#8) ∧
  decode (.host 0x07580000#32) = .ok (.ctrlXact 0x58#8) ∧
  decode (.host 0x088A0000#32) = .ok (.dataXact 0x8A#8) ∧
  decode (.bus 0x15B#9) = .ok (.busCtrl false true false true true 3#3) ∧
  decode (.bus 0x08A#9) = .ok (.busData true 0x0A#7) ∧
  decode (.host 0x00000000#32) = .error .unassignedOp ∧
  decode (.host 0x09000000#32) = .error .unassignedOp ∧
  decode (.host 0xFF000000#32) = .error .unassignedOp ∧
  decode (.host 0x02000001#32) = .error .unusedField ∧
  decode (.host 0x04010000#32) = .error .unusedField ∧
  decode (.host 0x01031A0C#32) = .error .mustBeZero ∧
  decode (.host 0x05000005#32) = .error .unusedField ∧
  decode (.host 0x06030100#32) = .error .unusedField ∧
  decode (.host 0x07580004#32) = .error .unusedField

/-- R62: a bus word is `{MODE, D[7:0]}`; bit 8 selects the format; all 512 values decode, and a pair (m, b)
of the transaction list is read this way. -/
def Obligations.EveryBusWordDecodesByItsModeBit : Prop :=
  (∀ w : BitVec 9, ∃ i, decode (.bus w) = .ok i ∧ i.isBusWord = true ∧ encode i = .bus w) ∧
  (∀ b : Byte, decode (.bus (1#1 ++ b)) =
    .ok (.busCtrl (csDc b) (csHex b) (csNd b) (csSd b) (csBank b) (csDigit b))) ∧
  (∀ b : Byte, decode (.bus (0#1 ++ b)) = .ok (.busData (b.getLsbD 7) (b.extractLsb' 0 7)))

/-! ## One step (20_memory.md R56, 10_state.md R32, 00_scope.md R12) -/

/-- A step runs the decoded instruction: at `SEQ = IDLE`, with a word presented to be performed whole that
decodes to `i`, step is `exec i` on the state whose host has gone on to its next action. -/
def Obligations.StepAtIdleRunsThePresentedWord : Prop :=
  ∀ (s : State) (c : Encoded) (i : Instr) (rest : List HostAct),
    s.seq = .idle → s.host = .issue c :: rest → decode c = .ok i →
      step s = exec i { s with host := rest }

/-- The table word placed by `withFetchWord` is what the very next step runs, at an idle sequencer. -/
def Obligations.PlacedTableWordRunsNext : Prop :=
  ∀ (s : State) (nbits w : Nat) (i : Instr), decodeTableWord nbits w = some i →
    step (s.withFetchWord nbits w) = exec i { s with seq := .idle }

/-- R72 (decision D2): an ILLEGAL word presented to an idle sequencer is refused, at either granularity;
the all-zero word is ILLEGAL. -/
def Obligations.IllegalWordIsRefusedByName : Prop :=
  (∀ (s : State) (w : BitVec 32) (why : Illegal) (rest : List HostAct),
    s.seq = .idle → (s.host = .issue (.host w) :: rest ∨ s.host = .start (.host w) :: rest) →
    decode (.host w) = .error why → step s = .refused (.illegalCommand why w)) ∧
  decode (.host 0#32) = .error .unassignedOp

/-- R12, of the eight operations; that BUS_CTRL and BUS_DATA run at all is the model's choice (log entry 7):
an instruction gives a next state with `TR` extended and, for decode_type, a returned value, for every
operand value and every state; a refusal comes only from a command word that decodes to no operation; there
is no fault. -/
def Obligations.EveryOperationIsTotalAndOnlyIllegalWordsRefuse : Prop :=
  (∀ (i : Instr) (s : State), ∃ t, exec i s = .next t ∧ (∃ es, t.tr = s.tr ++ es) ∧
    (i = .decodeType → t.responses = s.responses ++ [responseCode (decodeModeOf s.cs)]) ∧
    (i ≠ .decodeType → t.responses = s.responses)) ∧
  (∀ (s : State) (f : Fault), step s ≠ .fault f) ∧
  (∀ (s : State) (r : Refusal), step s = .refused r →
    s.seq = .idle ∧ ∃ why w rest, r = .illegalCommand why w ∧ decode (.host w) = .error why ∧
      (s.host = .issue (.host w) :: rest ∨ s.host = .start (.host w) :: rest))

/-- R56, R32, R42 (decisions D13, D16; the step in which a mutation lands is log entry 11 and the handling of
the host list log entry 26, the model's choices): while a command runs, with no reset asserted, the step
performs exactly event `i` of the command, its transaction's mutation of `CS` before the transaction's first
event, and advances the pointer, to `IDLE` after the last. A presented word waits unconsumed, a pass is
consumed, and no response is given: nothing else changes. -/
def Obligations.BusySequencerPerformsOneEventAndHoldsTheHost : Prop :=
  ∀ (s : State) (cmd : Instr) (i : Nat) (hs : List HostAct),
    s.seq = .run cmd i → i < eventCount cmd →
    (waitsForReady s.host = true ∧ hs = s.host) ∨ s.host = .pass :: hs →
    ∃ part e, (parts cmd)[i / 6]? = some part ∧
      (transaction part.level (carriedByte (chipStateAt part i s.cs) part.carried))[i % 6]? = some e ∧
      step s = .next
        { s with
          cs := chipStateAt part i s.cs
          lines := applyEvent s.lines e
          tr := s.tr ++ [e]
          seq := if i + 1 < eventCount cmd then .run cmd (i + 1) else .idle
          host := hs }

/-- The model's choice (log entry 9): with nothing presented an idle sequencer does nothing. -/
def Obligations.IdleSequencerWithNothingPresentedStays : Prop :=
  (∀ s : State, s.seq = .idle → s.host = [] → step s = .next s) ∧
  (∀ (s : State) (rest : List HostAct), s.seq = .idle → s.host = .pass :: rest →
    step s = .next { s with host := rest })

/-- R32: a command accepted to be performed event by event starts at event 0; decode_type has an empty event
list, returns its value at once, and `SEQ` stays `IDLE`. That the accepting step changes nothing else, so
that `CS` is not yet mutated, is the model's choice (log entry 11): R32 only puts the mutation before the
transaction's first event. -/
def Obligations.AcceptanceStartsAtEventZero : Prop :=
  ∀ (s : State) (c : Encoded) (i : Instr) (rest : List HostAct),
    s.seq = .idle → s.host = .start c :: rest → decode c = .ok i →
      (i ≠ .decodeType → 0 < eventCount i ∧
        step s = .next { s with host := rest, seq := .run i 0 }) ∧
      (i = .decodeType → eventCount i = 0 ∧
        step s = .next { s with host := rest, responses := s.responses ++ [s.rspCode] })

/-- R81, R32: in the event-level UPDATE_DIGIT the decode bits change with the first event of the first
transaction, the digit with the first event of the second, and `CS` at no other event. -/
def Obligations.UpdateDigitMutatesBeforeEachTransaction : Prop :=
  ∀ (s t : State) (a : Byte) (m : ModeOperand) (v : Byte) (p : Bool) (i : Nat),
    s.seq = .run (.updateDigit a m v p) i → i < 18 → noReset s.host = true → step s = .next t →
      t.cs = if i = 0 then setdec s.cs m else if i = 6 then setdigit s.cs a else s.cs

/-- R32 (decision D16): the two granularities agree. A command accepted by an idle sequencer and performed
event by event, while the host holds what it presents next, ends after its events in exactly the state
`exec` gives in one step. -/
def Obligations.EventLevelRunEqualsTheWholeCommand : Prop :=
  ∀ (s : State) (i : Instr) (rest : List HostAct), s.seq = .idle → waitsForReady rest = true →
    stepN (eventCount i + 1) { s with host := .start (encode i) :: rest } =
      exec i { s with host := rest }

/-- R53 (d), R108 (and the fairness of D22; the step in which a mutation lands is log entry 11, the model's
choice): a running command comes to its end. After as many steps as it has events left, exactly those events
have been performed in order, `CS` has the mutations of the transactions begun since, the sequencer is idle
and ready, and `WR` is high; nothing else has changed. -/
def Obligations.RunningCommandCompletes : Prop :=
  ∀ (s : State) (cmd : Instr) (i : Nat),
    s.seq = .run cmd i → i < eventCount cmd → waitsForReady s.host = true →
    ∃ t, stepN (eventCount cmd - i) s = .next t ∧
      t = { s with
            cs := chipStateAtEnd cmd i s.cs
            lines := (eventsLeft cmd i s.cs).foldl applyEvent s.lines
            tr := s.tr ++ eventsLeft cmd i s.cs
            seq := .idle } ∧
      (eventsLeft cmd i s.cs).length = eventCount cmd - i ∧
      t.cmdReady = true ∧ t.lines.wr = true

/-! ## The operations, each with its result on every state -/

/-- R80: UPDATE_DIGIT. Its encoding; its result, the three transactions in order and nothing else; bits 3,
4 and 7 of `CS` preserved; the worked example. -/
def Obligations.UpdateDigitSendsDecodingDigitAndData : Prop :=
  (∀ w : BitVec 32, (∃ a m v p, decode (.host w) = .ok (.updateDigit a m v p)) ↔
    w &&& 0xFF0000F8#32 = 0x01000000#32) ∧
  (∀ w : BitVec 32, w &&& 0xFF0000F8#32 = 0x01000000#32 → decode (.host w) =
    .ok (.updateDigit (w.extractLsb' 16 8) (modeOfCode (w.extractLsb' 1 2)) (w.extractLsb' 8 8)
      (w.getLsbD 0))) ∧
  (∀ (a : Byte) (m : ModeOperand) (v : Byte) (p : Bool) (s : State) (c1 c2 b : Byte),
    c1 = setdec s.cs m → c2 = (c1 &&& 0xF8#8) ||| (a &&& 0x07#8) →
    b = databyte (decodeModeOf c2) v p →
    exec (.updateDigit a m v p) s = .next
      { s with
        cs := c2
        lines := linesAfter false b
        tr := s.tr ++ transaction true c1 ++ transaction true c2 ++ transaction false b } ∧
    csBank c2 = csBank s.cs ∧ csSd c2 = csSd s.cs ∧ csDc c2 = csDc s.cs) ∧
  decode (.host 0x01031A04#32) = .ok (.updateDigit 3#8 .hex 0x1A#8 false) ∧
  (∀ s : State, s.cs = 0x18#8 → exec (.updateDigit 3#8 .hex 0x1A#8 false) s = .next
    { s with
      cs := 0x5B#8
      lines := linesAfter false 0x8A#8
      tr := s.tr ++ transactions [(true, 0x58#8), (true, 0x5B#8), (false, 0x8A#8)] })

/-- R90: TURN_ON. The single word; `CS[4] <- 1` and one control transaction carrying the new `CS`, issued
also when the bit was set; the other bits kept; the worked example. -/
def Obligations.TurnOnSetsOperatingAndPushes : Prop :=
  (∀ w : BitVec 32, decode (.host w) = .ok .turnOn ↔ w = 0x02000000#32) ∧
  (∀ s : State, exec .turnOn s =
    .next (afterTransaction true (s.cs ||| 0x10#8) { s with cs := s.cs ||| 0x10#8 })) ∧
  (∀ c : Byte, csSd (c ||| 0x10#8) = true ∧ (csSd c = true → c ||| 0x10#8 = c) ∧
    ∀ k, k ≠ 4 → (c ||| 0x10#8).getLsbD k = c.getLsbD k) ∧
  (∀ s : State, s.cs = 0x08#8 → exec .turnOn s = .next
    { s with
      cs := 0x18#8
      lines := { mode := some true, portLo := some 0x8#4, portHi := some 0x1#4, wr := true }
      tr := s.tr ++ transaction true 0x18#8 })

/-- R91: TURN_OFF. The single word; `CS[4] <- 0` and one control transaction carrying the new `CS`, issued
also when the bit was clear; the other bits kept; the worked example. -/
def Obligations.TurnOffClearsOperatingAndPushes : Prop :=
  (∀ w : BitVec 32, decode (.host w) = .ok .turnOff ↔ w = 0x03000000#32) ∧
  (∀ s : State, exec .turnOff s =
    .next (afterTransaction true (s.cs &&& 0xEF#8) { s with cs := s.cs &&& 0xEF#8 })) ∧
  (∀ c : Byte, csSd (c &&& 0xEF#8) = false ∧ (csSd c = false → c &&& 0xEF#8 = c) ∧
    ∀ k, k ≠ 4 → (c &&& 0xEF#8).getLsbD k = c.getLsbD k) ∧
  (∀ s : State, s.cs = 0x5B#8 → exec .turnOff s = .next
    { s with
      cs := 0x4B#8
      lines := { mode := some true, portLo := some 0xB#4, portHi := some 0x4#4, wr := true }
      tr := s.tr ++ transaction true 0x4B#8 })

/-- R94: DECODE_TYPE. The single word; the response is the code of `DM(CS)` by `CS[6:5]` and depends on no
other bit; `CS`, the latches, `TR` and `SEQ` unchanged; after reset CodeBDecoding; after SET_DECODING 3
NoDecoding; the worked example. -/
def Obligations.DecodeTypeReturnsTheModeAndWritesNothing : Prop :=
  (∀ w : BitVec 32, decode (.host w) = .ok .decodeType ↔ w = 0x04000000#32) ∧
  (∀ s : State, exec .decodeType s = .next
    { s with
      responses := s.responses ++
        [if s.cs.getLsbD 5 then 1#2 else if s.cs.getLsbD 6 then 2#2 else 0#2] }) ∧
  responseCode (decodeModeOf State.reset.cs) = 0#2 ∧
  (∀ s t u : State, exec (.setDecoding .unrecognised) s = .next t → exec .decodeType t = .next u →
    u.responses = s.responses ++ [1#2]) ∧
  (∀ s : State, s.cs = 0x48#8 → exec .decodeType s =
    .next { s with responses := s.responses ++ [2#2] })

/-- R97 (its arm for `M = 3` is R98, the spec's decision D4): SET_DECODING. Its encoding; bits 6 and 5
cleared, then the arm of the mode, and one control transaction; the other bits kept, the pattern `0b11`
never left, idempotent on `CS`; the worked example. -/
def Obligations.SetDecodingReplacesTheModeBitsAndPushes : Prop :=
  (∀ w : BitVec 32, (∃ m, decode (.host w) = .ok (.setDecoding m)) ↔
    w &&& 0xFFFFFFF9#32 = 0x05000000#32) ∧
  (∀ w : BitVec 32, w &&& 0xFFFFFFF9#32 = 0x05000000#32 →
    decode (.host w) = .ok (.setDecoding (modeOfCode (w.extractLsb' 1 2)))) ∧
  (∀ (m : ModeOperand) (s : State) (c : Byte),
    c = (s.cs &&& 0x9F#8) ||| modeBits m →
    exec (.setDecoding m) s = .next (afterTransaction true c { s with cs := c }) ∧
    (∀ k, k ≠ 5 → k ≠ 6 → c.getLsbD k = s.cs.getLsbD k) ∧ ¬(csHex c = true ∧ csNd c = true) ∧
    decodeModeOf c = effectiveMode m ∧
    (∀ t u, exec (.setDecoding m) s = .next t → exec (.setDecoding m) t = .next u → u.cs = t.cs ∧
      u.tr = s.tr ++ transactions [(true, c), (true, c)])) ∧
  (decode (.host 0x05000004#32) = .ok (.setDecoding .hex) ∧
    ∀ s : State, s.cs = 0x18#8 → exec (.setDecoding .hex) s = .next
    { s with
      cs := 0x58#8
      lines := { mode := some true, portLo := some 0x8#4, portHi := some 0x5#4, wr := true }
      tr := s.tr ++ transaction true 0x58#8 })

/-- R99: SET_DIGIT. Its encoding; `CS[2:0] <- A mod 8`, bits 7:3 of `A` never reaching `CS`, and one control
transaction; idempotent on `CS`; the worked example. -/
def Obligations.SetDigitReplacesTheLowThreeBitsAndPushes : Prop :=
  (∀ w : BitVec 32, (∃ a, decode (.host w) = .ok (.setDigit a)) ↔
    w &&& 0xFF00FFFF#32 = 0x06000000#32) ∧
  (∀ w : BitVec 32, w &&& 0xFF00FFFF#32 = 0x06000000#32 →
    decode (.host w) = .ok (.setDigit (w.extractLsb' 16 8))) ∧
  (∀ (a : Byte) (s : State) (c : Byte), c = (s.cs &&& 0xF8#8) ||| (a &&& 0x07#8) →
    exec (.setDigit a) s = .next (afterTransaction true c { s with cs := c }) ∧
    (csDigit c).toNat = a.toNat % 8 ∧ (∀ k, 3 ≤ k → c.getLsbD k = s.cs.getLsbD k) ∧
    (∀ t u, exec (.setDigit a) s = .next t → exec (.setDigit a) t = .next u → u.cs = t.cs)) ∧
  (decode (.host 0x06030000#32) = .ok (.setDigit 3#8) ∧
    ∀ s : State, s.cs = 0x58#8 → exec (.setDigit 3#8) s = .next
    { s with
      cs := 0x5B#8
      lines := { mode := some true, portLo := some 0xB#4, portHi := some 0x5#4, wr := true }
      tr := s.tr ++ transaction true 0x5B#8 })

/-- R103: CTRL_XACT. Its encoding; one control transaction carrying the byte as given, `CS` unchanged; the
worked example. -/
def Obligations.CtrlXactSendsItsByteAsControl : Prop :=
  (∀ w : BitVec 32, (∃ a, decode (.host w) = .ok (.ctrlXact a)) ↔
    w &&& 0xFF00FFFF#32 = 0x07000000#32) ∧
  (∀ w : BitVec 32, w &&& 0xFF00FFFF#32 = 0x07000000#32 →
    decode (.host w) = .ok (.ctrlXact (w.extractLsb' 16 8))) ∧
  (∀ (a : Byte) (s : State), exec (.ctrlXact a) s = .next
    { s with
      lines := { mode := some true, portLo := some (low a), portHi := some (high a), wr := true }
      tr := s.tr ++ transaction true a }) ∧
  (decode (.host 0x07580000#32) = .ok (.ctrlXact 0x58#8) ∧
    transaction true 0x58#8 = [.setMode true, .setNibbles 0x8#4 0x5#4, .delay Config.tSettle,
      .setStrobe false, .delay Config.tStrobe, .setStrobe true])

/-- R104: DATA_XACT. Its encoding; one data transaction carrying the byte as given, `CS` unchanged; the
worked example. -/
def Obligations.DataXactSendsItsByteAsData : Prop :=
  (∀ w : BitVec 32, (∃ a, decode (.host w) = .ok (.dataXact a)) ↔
    w &&& 0xFF00FFFF#32 = 0x08000000#32) ∧
  (∀ w : BitVec 32, w &&& 0xFF00FFFF#32 = 0x08000000#32 →
    decode (.host w) = .ok (.dataXact (w.extractLsb' 16 8))) ∧
  (∀ (a : Byte) (s : State), exec (.dataXact a) s = .next
    { s with
      lines := { mode := some false, portLo := some (low a), portHi := some (high a), wr := true }
      tr := s.tr ++ transaction false a }) ∧
  (decode (.host 0x088A0000#32) = .ok (.dataXact 0x8A#8) ∧
    transaction false 0x8A#8 = [.setMode false, .setNibbles 0xA#4 0x8#4, .delay Config.tSettle,
      .setStrobe false, .delay Config.tStrobe, .setStrobe true])

/-- The meaning the model gives the two bus-word rows (log entry 7, the model's choice; formats R60, R61):
a bus word that decodes to a bus instruction runs as the one transaction whose mode line is its bit 8 and
whose byte is its bits 7:0, and changes nothing else. -/
def Obligations.BusWordRunsAsTheTransactionThatCarriesIt : Prop :=
  (∀ (b : Byte) (s : State), exec
    (.busCtrl (b.getLsbD 7) (b.getLsbD 6) (b.getLsbD 5) (b.getLsbD 4) (b.getLsbD 3)
      (b.extractLsb' 0 3)) s = .next (afterTransaction true b s)) ∧
  (∀ (b : Byte) (s : State), exec (.busData (b.getLsbD 7) (b.extractLsb' 0 7)) s =
    .next (afterTransaction false b s)) ∧
  (∀ (m : Bool) (b : Byte) (i : Instr) (s : State),
    decode (.bus (BitVec.ofBool m ++ b)) = .ok i → exec i s = .next (afterTransaction m b s)) ∧
  (∀ (dc hex nd sd bank : Bool) (digit : BitVec 3) (s : State),
    exec (.busCtrl dc hex nd sd bank digit) s = .next
      (afterTransaction true (BitVec.ofBool dc ++ BitVec.ofBool hex ++ BitVec.ofBool nd ++
        BitVec.ofBool sd ++ BitVec.ofBool bank ++ digit) s)) ∧
  (∀ (dpn : Bool) (payload : BitVec 7) (s : State),
    exec (.busData dpn payload) s =
      .next (afterTransaction false (BitVec.ofBool dpn ++ payload) s))

/-! ## Frames -/

/-- The four mutators other than UPDATE_DIGIT: each changes only its own field of `CS` (R90, R91, R97, R99),
appends one transaction, and leaves `SEQ`, the responses and the host alone. -/
def Obligations.SettersChangeOnlyTheirField : Prop :=
  ∀ (i : Instr) (field : Nat → Bool) (s t : State),
    ((i = .turnOn ∨ i = .turnOff) ∧ field = (fun k => k == 4)) ∨
    ((∃ m, i = .setDecoding m) ∧ field = (fun k => k == 5 || k == 6)) ∨
    ((∃ a, i = .setDigit a) ∧ field = (fun k => decide (k < 3))) →
    exec i s = .next t →
      (∀ k, field k = false → t.cs.getLsbD k = s.cs.getLsbD k) ∧
      t.seq = s.seq ∧ t.responses = s.responses ∧ t.host = s.host ∧
      t.tr = s.tr ++ transaction true t.cs ∧ t.lines = linesAfter true t.cs

/-- UPDATE_DIGIT (R80): bits 3, 4 and 7 of `CS`, `SEQ`, the responses and the host unchanged; the trace
extended by 18 events. -/
def Obligations.UpdateDigitChangesOnlyModeAndDigit : Prop :=
  ∀ (a : Byte) (m : ModeOperand) (v : Byte) (p : Bool) (s t : State),
    exec (.updateDigit a m v p) s = .next t →
      csBank t.cs = csBank s.cs ∧ csSd t.cs = csSd s.cs ∧ csDc t.cs = csDc s.cs ∧
      t.seq = s.seq ∧ t.responses = s.responses ∧ t.host = s.host ∧
      ∃ es, t.tr = s.tr ++ es ∧ es.length = 18

/-- DECODE_TYPE (R94) and the operations that do not touch `CS` (R103, R104, and the bus words, whose meaning
is the model's choice, log entry 7): `CS`, `SEQ` and the host unchanged; DECODE_TYPE leaves the latches and
the trace too, the others leave the responses and append their one transaction, its level and byte those
the instruction gives. -/
def Obligations.QueryAndRawTransactionsKeepChipState : Prop :=
  ∀ (i : Instr) (s t : State), i = .decodeType ∨ i.isRaw = true → exec i s = .next t →
    t.cs = s.cs ∧ t.seq = s.seq ∧ t.host = s.host ∧
    (i = .decodeType → t.lines = s.lines ∧ t.tr = s.tr) ∧
    (i.isRaw = true → t.responses = s.responses ∧
      ∃ m b, parts i = [⟨.keep, m, .given b⟩] ∧ t.tr = s.tr ++ transaction m b ∧
        t.lines = linesAfter m b)

/-! ## What the operations compute -/

/-- R28: the decode mode by bits 6 and 5 only, for all four patterns, and what reads it: decode_type and
step (c) of update_digit. -/
def Obligations.DecodeModeDependsOnBitsSixAndFive : Prop :=
  (∀ c : Byte, decodeModeOf c =
    if (c >>> 5) &&& 0x3#8 = 0#8 then .codeB
    else if (c >>> 5) &&& 0x3#8 = 2#8 then .hex else .noDecoding) ∧
  (∀ c d : Byte, c.getLsbD 6 = d.getLsbD 6 → c.getLsbD 5 = d.getLsbD 5 →
    decodeModeOf c = decodeModeOf d) ∧
  (∀ c : Byte, (decodeModeOf c = .codeB ↔ csHex c = false ∧ csNd c = false) ∧
    (decodeModeOf c = .hex ↔ csHex c = true ∧ csNd c = false) ∧
    (decodeModeOf c = .noDecoding ↔ csNd c = true)) ∧
  (∀ s t : State, exec .decodeType s = .next t →
    t.responses = s.responses ++ [responseCode (decodeModeOf s.cs)]) ∧
  (∀ (a : Byte) (m : ModeOperand) (v : Byte) (p : Bool) (s t : State),
    exec (.updateDigit a m v p) s = .next t →
      t.lines = linesAfter false (databyte (decodeModeOf t.cs) v p))

/-- R82 to R85: the data byte under each effective mode, the decimal-point bit, and that UPDATE_DIGIT sends
it under the mode read from `CS` after step (b). -/
def Obligations.DataByteFollowsTheEffectiveMode : Prop :=
  (∀ v : Byte, ∀ p : Bool,
    databyte .codeB v p = (if v = 0#8 then 0x0F#8 else v &&& 0x0F#8) ||| (if p then 0#8 else 0x80#8) ∧
    databyte .hex v p = (v &&& 0x0F#8) ||| (if p then 0#8 else 0x80#8) ∧
    databyte .noDecoding v p = v ||| (if p then 0#8 else 0x80#8) ∧
    (databyte .codeB v p).getLsbD 7 = !p ∧ (databyte .hex v p).getLsbD 7 = !p ∧
    (databyte .noDecoding v p).getLsbD 7 = (v.getLsbD 7 || !p)) ∧
  databyte .codeB 0x00#8 false = 0x8F#8 ∧ databyte .codeB 0x00#8 true = 0x0F#8 ∧
  databyte .codeB 0x10#8 false = 0x80#8 ∧ databyte .codeB 0x10#8 true = 0x00#8 ∧
  databyte .hex 0x00#8 false = 0x80#8 ∧ databyte .hex 0x00#8 true = 0x00#8 ∧
  (∀ (a : Byte) (m : ModeOperand) (v : Byte) (p : Bool) (s t : State),
    exec (.updateDigit a m v p) s = .next t →
      ∃ b1 b2, t.tr = s.tr ++ transactions
        [(true, b1), (true, b2), (false, databyte (decodeModeOf t.cs) v p)])

/-- R87, R98 (the spec's decision D4): the unrecognised mode leaves `CS[6:5] = 0b01` and update_digit sends
`V | DPB`, exactly as with NoDecoding. -/
def Obligations.UnrecognisedModeActsAsNoDecoding : Prop :=
  ∀ (a v : Byte) (p : Bool) (s : State),
    exec (.updateDigit a .unrecognised v p) s = exec (.updateDigit a .noDecoding v p) s ∧
    exec (.setDecoding .unrecognised) s = exec (.setDecoding .noDecoding) s ∧
    ∃ t, exec (.updateDigit a .unrecognised v p) s = .next t ∧ csHex t.cs = false ∧
      csNd t.cs = true ∧ t.lines = linesAfter false (v ||| (if p then 0#8 else 0x80#8))

/-- R27: `CS` is the concatenation of its fields and each field is recovered from it; the control word a
setter sends is `CS` itself. -/
def Obligations.ChipStateIsItsFieldsAndIsTheControlWord : Prop :=
  (∀ c : Byte,
    c = packControl (csDc c) (csHex c) (csNd c) (csSd c) (csBank c) (csDigit c) ∧
    c = ((BitVec.ofBool (csDc c)).setWidth 8 <<< 7) ||| ((BitVec.ofBool (csHex c)).setWidth 8 <<< 6) |||
      ((BitVec.ofBool (csNd c)).setWidth 8 <<< 5) ||| ((BitVec.ofBool (csSd c)).setWidth 8 <<< 4) |||
      ((BitVec.ofBool (csBank c)).setWidth 8 <<< 3) ||| (csDigit c).setWidth 8 ∧
    (csDigit c).setWidth 8 = c &&& 0x07#8 ∧
    (BitVec.ofBool (csBank c)).setWidth 8 = (c >>> 3) &&& 1#8 ∧
    (BitVec.ofBool (csSd c)).setWidth 8 = (c >>> 4) &&& 1#8 ∧
    (BitVec.ofBool (csNd c)).setWidth 8 = (c >>> 5) &&& 1#8 ∧
    (BitVec.ofBool (csHex c)).setWidth 8 = (c >>> 6) &&& 1#8 ∧
    (BitVec.ofBool (csDc c)).setWidth 8 = (c >>> 7) &&& 1#8) ∧
  (∀ (i : Instr) (s t : State),
    i = .turnOn ∨ i = .turnOff ∨ (∃ m, i = .setDecoding m) ∨ (∃ a, i = .setDigit a) →
    exec i s = .next t → t.tr = s.tr ++ transaction true t.cs)

/-- R29 (its second half is an inference the spec marks as its own): after set_decoding(m) the effective
mode is m, for the three defined modes, and no operation but set_decoding and update_digit changes it. -/
def Obligations.DecodeModeStaysUntilTheNextSetDecoding : Prop :=
  (∀ (s t : State), exec (.setDecoding .codeB) s = .next t → decodeModeOf t.cs = .codeB) ∧
  (∀ (s t : State), exec (.setDecoding .noDecoding) s = .next t → decodeModeOf t.cs = .noDecoding) ∧
  (∀ (s t : State), exec (.setDecoding .hex) s = .next t → decodeModeOf t.cs = .hex) ∧
  (∀ (i : Instr) (s t : State), (∀ m, i ≠ .setDecoding m) → (∀ a m v p, i ≠ .updateDigit a m v p) →
    exec i s = .next t → decodeModeOf t.cs = decodeModeOf s.cs ∧ csHex t.cs = csHex s.cs ∧
      csNd t.cs = csNd s.cs)

/-- R41, R42 (that both groups change in one event is the spec's decision D10): what each event does to the
latches, and that `Emit` appends it to the trace. -/
def Obligations.EachEventDrivesItsLatch : Prop :=
  ∀ (s : State) (l : Level) (lo hi : Nibble) (n : Nat),
    emit (.setMode l) s =
      { s with tr := s.tr ++ [.setMode l], lines := { s.lines with mode := some l } } ∧
    emit (.setNibbles lo hi) s =
      { s with
        tr := s.tr ++ [.setNibbles lo hi]
        lines := { s.lines with portLo := some lo, portHi := some hi } } ∧
    emit (.delay n) s = { s with tr := s.tr ++ [.delay n] } ∧
    emit (.setStrobe l) s =
      { s with tr := s.tr ++ [.setStrobe l], lines := { s.lines with wr := l } }

/-- R102, R107 (the parameters are OPEN, D11): `BusWrite` is the six events in order, whatever the state;
no mode is carried between transactions; both delay arguments are at or above their bounds. -/
def Obligations.BusWriteIsTheSixEventsWhateverTheState : Prop :=
  (∀ (m : Level) (b : Byte) (s : State), busWrite m b s = afterTransaction m b s) ∧
  (∀ (m : Level) (b : Byte) (s : State), ∃ es, (busWrite m b s).tr = s.tr ++ es ∧ es.length = 6 ∧
    es.head? = some (.setMode m)) ∧
  50 ≤ Config.tSettle ∧ 250 ≤ Config.tStrobe

/-! ## Laws between operations -/

/-- R75: the expansions, exactly, on the whole state. -/
def Obligations.OperationsEqualTheirExpansions : Prop :=
  (∀ (a : Byte) (m : ModeOperand) (v : Byte) (p : Bool) (s : State), ∃ s1 s2,
    exec (.setDecoding m) s = .next s1 ∧ exec (.setDigit a) s1 = .next s2 ∧
    exec (.updateDigit a m v p) s = exec (.dataXact (databyte (decodeModeOf s2.cs) v p)) s2) ∧
  (∀ (m : ModeOperand) (s : State),
    exec (.setDecoding m) s = exec (.ctrlXact (setdec s.cs m)) { s with cs := setdec s.cs m }) ∧
  (∀ (a : Byte) (s : State), exec (.setDigit a) s =
    exec (.ctrlXact ((s.cs &&& 0xF8#8) ||| (a &&& 0x07#8)))
      { s with cs := (s.cs &&& 0xF8#8) ||| (a &&& 0x07#8) }) ∧
  (∀ s : State, exec .turnOn s =
    exec (.ctrlXact (s.cs ||| 0x10#8)) { s with cs := s.cs ||| 0x10#8 }) ∧
  (∀ s : State, exec .turnOff s =
    exec (.ctrlXact (s.cs &&& 0xEF#8)) { s with cs := s.cs &&& 0xEF#8 }) ∧
  (∀ (b : Byte) (s : State), exec (.ctrlXact b) s = .next (busWrite true b s)) ∧
  (∀ (b : Byte) (s : State), exec (.dataXact b) s = .next (busWrite false b s))

/-- R92 (its (c) is an inference the spec marks as its own): turn_on then turn_off from a shut-down state
restores `CS` and appends two control transactions; the decode mode is unaffected by power toggling; each
of the pair is idempotent on `CS` with two transactions. -/
def Obligations.PowerPairLaws : Prop :=
  (∀ s t u : State, csSd s.cs = false → exec .turnOn s = .next t → exec .turnOff t = .next u →
    u.cs = s.cs ∧ csSd t.cs = true ∧
    u.tr = s.tr ++ transactions [(true, s.cs ||| 0x10#8), (true, s.cs)]) ∧
  (∀ s t u : State, exec .turnOn s = .next t → exec .turnOff s = .next u →
    decodeModeOf t.cs = decodeModeOf s.cs ∧ decodeModeOf u.cs = decodeModeOf s.cs) ∧
  (∀ (i : Instr) (s t u : State), i = .turnOn ∨ i = .turnOff → exec i s = .next t →
    exec i t = .next u → u.cs = t.cs ∧ u.tr = s.tr ++ transactions [(true, t.cs), (true, t.cs)])

/-- R100 (an inference the spec marks as its own): two operations that write disjoint fields of `CS`
commute on `CS`; on the bus each pushes the `CS` of its moment. -/
def Obligations.SettersOfDifferentFieldsCommuteOnChipState : Prop :=
  ∀ (i j : Instr) (s s1 s2 t1 t2 : State),
    ((∃ m, i = .setDecoding m) ∧ (∃ a, j = .setDigit a)) ∨
    ((∃ m, i = .setDecoding m) ∧ (j = .turnOn ∨ j = .turnOff)) ∨
    ((∃ a, i = .setDigit a) ∧ (j = .turnOn ∨ j = .turnOff)) →
    exec i s = .next s1 → exec j s1 = .next s2 → exec j s = .next t1 → exec i t1 = .next t2 →
      s2.cs = t2.cs ∧ s2.tr = s.tr ++ transactions [(true, s1.cs), (true, s2.cs)] ∧
      t2.tr = s.tr ++ transactions [(true, t1.cs), (true, s2.cs)]

/-- R95 (its second sentence is an inference the spec marks as its own): two queries with no mutation of the
decode bits between them return the same value; power, digit and raw transactions between them do not
change it. -/
def Obligations.QueryIsStableUntilTheModeIsSet : Prop :=
  ∀ (i : Instr) (s s1 s2 s3 : State), (∀ m, i ≠ .setDecoding m) →
    (∀ a m v p, i ≠ .updateDigit a m v p) → i ≠ .decodeType →
    exec .decodeType s = .next s1 → exec i s1 = .next s2 → exec .decodeType s2 = .next s3 →
      ∃ r, r ≠ 3#2 ∧ s1.responses = s.responses ++ [r] ∧ s3.responses = s.responses ++ [r, r]

/-- R47, R144, of the eight operations; the counts of BUS_CTRL and BUS_DATA are the model's choice (log
entry 7): how many transactions each instruction adds to the transaction list and of which kind: three for
UPDATE_DIGIT (control, control, data), none for DECODE_TYPE, one for every other. -/
def Obligations.EachOperationAddsItsTransactions : Prop :=
  ∀ (i : Instr) (s t : State) (txs : List (Level × Byte)),
    txView s.tr = some txs → exec i s = .next t →
    ∃ added, txView t.tr = some (txs ++ added) ∧
      added.map Prod.fst = transactionKinds i

/-- R96 (that the byte is the whole `CS` is the spec's reading D9): a setter ends with exactly one control
transaction carrying the whole `CS` after the mutation, also when the mutation changes nothing. -/
def Obligations.SettersPushTheWholeChipStateOnce : Prop :=
  ∀ (i : Instr) (s t : State) (txs : List (Level × Byte)),
    i = .turnOn ∨ i = .turnOff ∨ (∃ m, i = .setDecoding m) ∨ (∃ a, i = .setDigit a) →
    txView s.tr = some txs → exec i s = .next t →
      txView t.tr = some (txs ++ [(true, t.cs)])

/-- R142, R143 (the latter an inference the spec marks as its own): under NoDecoding a value with bit 7 set
always sends bit 7 = 1; under Code-B value 0 sends the blank code and a non-zero value with low nibble 0
sends code 0; under hex value 0 sends code 0. -/
def Obligations.PointAndBlankHazards : Prop :=
  ∀ (a v : Byte) (p : Bool) (s t : State),
    (exec (.updateDigit a .noDecoding v p) s = .next t → v.getLsbD 7 = true →
      t.lines = linesAfter false v) ∧
    (exec (.updateDigit a .codeB 0#8 p) s = .next t →
      t.lines = linesAfter false (if p then 0x0F#8 else 0x8F#8)) ∧
    (exec (.updateDigit a .codeB v p) s = .next t → v ≠ 0#8 → low v = 0#4 →
      t.lines = linesAfter false (if p then 0x00#8 else 0x80#8)) ∧
    (exec (.updateDigit a .hex 0#8 p) s = .next t →
      t.lines = linesAfter false (if p then 0x00#8 else 0x80#8))

/-! ## Reset (70_reset_and_hazards.md, 10_state.md R36) -/

/-- R36, R130 (the rows for bit 7, the lines, `TR` and `SEQ` are the spec's decisions D6, D7, D8, D16): the
state after reset. -/
def Obligations.ResetLeavesTheTabulatedState : Prop :=
  csDigit State.reset.cs = 0#3 ∧ csBank State.reset.cs = true ∧ csSd State.reset.cs = false ∧
  csNd State.reset.cs = false ∧ csHex State.reset.cs = false ∧
  csDc State.reset.cs = Config.dcReset ∧
  State.reset.cs = (if Config.dcReset then 0x88#8 else 0x08#8) ∧
  decodeModeOf State.reset.cs = .codeB ∧ State.reset.lines.wr = true ∧
  State.reset.lines.mode = none ∧ State.reset.lines.portLo = none ∧
  State.reset.lines.portHi = none ∧ State.reset.tr = [] ∧ State.reset.seq = .idle

/-- R132: after reset the block is ready, the first command may be any of the eight, and DECODE_TYPE
straight after reset gives CodeBDecoding. -/
def Obligations.AnyCommandRunsStraightAfterReset : Prop :=
  State.reset.cmdReady = true ∧
  (∀ i : Instr, i.isCommand = true →
    ∃ t, step { State.reset with host := [.issue (encode i)] } = .next t ∧
      exec i State.reset = .next t) ∧
  (∃ t, exec .decodeType State.reset = .next t ∧ t.responses = [0#2])

/-- R131, R113 (the spec's decision D24; that the host's later actions survive is the model's choice, log
entry 10): reset asserted at any moment, also while a command runs, leaves the reset state; no further
event of the command is performed. -/
def Obligations.ResetAbandonsWhateverRuns : Prop :=
  ∀ (s : State) (rest : List HostAct), s.host = .reset :: rest →
    step s = .next { State.reset with host := rest }

/-! ## Invariants over every step -/

/-- The invariant holds right after reset. -/
def Obligations.SafeRunHoldsAtReset : Prop := SafeState State.reset

/-- Every step keeps the invariant: bank A, bit 7 and no `0b11` in `CS` (R22, R26, R29), the pointer inside
its command (R32), the trace whole transactions and the begun part of one (R51, R53), and every latch at
the level last driven on it (R30). -/
def Obligations.EveryStepKeepsTheSafeRun : Prop :=
  ∀ s t : State, SafeState s → step s = .next t → SafeState t

/-- R22, R26: no step but a reset changes the bank bit or the data-coming bit. -/
def Obligations.NoStepWritesBankOrDataComing : Prop :=
  ∀ s t : State, noReset s.host = true → step s = .next t →
    csBank t.cs = csBank s.cs ∧ csDc t.cs = csDc s.cs

/-- R106 (an inference the spec marks as its own): in every state of a safe run `WR` is low exactly between
events 4 and 6 of a transaction, so it is high at `IDLE`. -/
def Obligations.StrobeIsLowOnlyInsideATransaction : Prop :=
  ∀ s : State, SafeState s →
    (s.lines.wr = false ↔ ∃ cmd i, s.seq = .run cmd i ∧ (i % 6 = 4 ∨ i % 6 = 5)) ∧
    (s.seq = .idle → s.lines.wr = true)

/-- R106 (an inference the spec marks as its own): while the strobe is low no step but a reset changes the
mode line or the groups. -/
def Obligations.LinesAreStableWhileTheStrobeIsLow : Prop :=
  ∀ s t : State, SafeState s → s.lines.wr = false → noReset s.host = true → step s = .next t →
    t.lines.mode = s.lines.mode ∧ t.lines.portLo = s.lines.portLo ∧
    t.lines.portHi = s.lines.portHi

/-- R105: in every state of a safe run the trace keeps both bounds, counting only the `Delay` arguments:
the strobe falls 50 ns or more after the nibbles and the mode line were driven and rises 250 ns or more
after it fell. -/
def Obligations.EveryTraceKeepsTheTimingBounds : Prop :=
  ∀ s : State, SafeState s → timed s.tr = true

/-- R51 (an inference the spec marks as its own): at `IDLE` the trace of a safe run is a whole number of
transactions with the two parameters as delay arguments, and its transaction view gives them back. -/
def Obligations.IdleTraceIsWholeTransactions : Prop :=
  ∀ s : State, SafeState s → s.seq = .idle →
    ∃ txs, txView s.tr = some txs ∧ s.tr = transactions txs

/-- R31, R53 (decision D21): the trace is append-only: a step that is no reset extends it, and at the event
level by at most one event; a reset empties it. -/
def Obligations.TraceIsAppendOnly : Prop :=
  ∀ s t : State, step s = .next t →
    (noReset s.host = true → s.tr <+: t.tr) ∧
    (noReset s.host = false → t.tr = []) ∧
    (noReset s.host = true → s.seq ≠ .idle → t.tr.length ≤ s.tr.length + 1)

/-- R116 (an inference the spec marks as its own): while only public operations and setters are performed,
the last control word on the bus is `CS`, wherever one has been sent. -/
def Obligations.PublicCommandsKeepTheChipTold : Prop :=
  ∀ s t : State, s.seq = .idle → t.seq = .idle → step s = .next t →
    (∀ c rest i, s.host = .issue c :: rest → decode c = .ok i → i.isRaw = false) →
    ToldChipState s → ToldChipState t

/-- R145 (an inference the spec marks as its own): a raw control transaction with another byte than `CS`
makes the chip's record differ from `CS`, and the next setter undoes it. -/
def Obligations.RawControlWordDesynchronisesUntilTheNextSetter : Prop :=
  ∀ (a : Byte) (j : Instr) (s t u : State) (txs : List (Level × Byte)),
    txView s.tr = some txs → a ≠ s.cs → exec (.ctrlXact a) s = .next t →
    j = .turnOn ∨ j = .turnOff ∨ (∃ m, j = .setDecoding m) ∨ (∃ d, j = .setDigit d) →
    exec j t = .next u →
      t.cs = s.cs ∧ ¬ToldChipState t ∧ ToldChipState u ∧
      txView u.tr = some (txs ++ [(true, a), (true, u.cs)])

/-! ## The display shadow (20_memory.md R52, a test aid and not the chip) -/

/-- R52 (decision D17, the closing clause an inference the spec marks as its own): after update_digit the
shadow's cell of the `CS` bank and digit `A mod 8` holds the data byte, every other cell is as before, and
`CW = CS`. -/
def Obligations.ShadowShowsTheUpdatedDigit : Prop :=
  ∀ (a : Byte) (m : ModeOperand) (v : Byte) (p : Bool) (s t : State) (before : Shadow),
    shadowOf s.tr = some before → exec (.updateDigit a m v p) s = .next t →
    ∃ after, shadowOf t.tr = some after ∧ after.cw = some t.cs ∧
      cellRead (8 * (csBank s.cs).toNat + a.toNat % 8) after.disp =
        some (databyte (decodeModeOf t.cs) v p) ∧
      ∀ k, k ≠ 8 * (csBank s.cs).toNat + a.toNat % 8 →
        cellRead k after.disp = cellRead k before.disp

/-- The shadow's memory keeps its canonical form along any transaction list (R52, sixteen cells). -/
def Obligations.ShadowMemoryStaysCanonical : Prop :=
  Memory.wf Shadow.reset.disp = true ∧
  ∀ (h h' : Shadow) (txs : List (Level × Byte)), Memory.wf h.disp = true →
    shadowRun h txs = some h' → Memory.wf h'.disp = true

/-- R52, R135: the observer refuses a run exactly when a data word comes before any control word. -/
def Obligations.ShadowRefusesADataWordBeforeAnyControlWord : Prop :=
  ∀ txs : List (Level × Byte),
    shadowRun Shadow.reset txs = none ↔ ∃ b rest, txs = (false, b) :: rest
end

