-- ==== Sys2Proof/Laws/State.lean ====
section
/-! SUPPORT. Laws/State.lean: one lemma per field per update of the state. -/

namespace Sys2Proof.Machine

@[simp] theorem writeCs_cs (v : Byte) (s : State) : (writeCs v s).cs = v := rfl
@[simp] theorem writeCs_lines (v : Byte) (s : State) : (writeCs v s).lines = s.lines := rfl
@[simp] theorem writeCs_tr (v : Byte) (s : State) : (writeCs v s).tr = s.tr := rfl
@[simp] theorem writeCs_seq (v : Byte) (s : State) : (writeCs v s).seq = s.seq := rfl
@[simp] theorem writeCs_responses (v : Byte) (s : State) : (writeCs v s).responses = s.responses := rfl
@[simp] theorem writeCs_host (v : Byte) (s : State) : (writeCs v s).host = s.host := rfl

@[simp] theorem setSeq_cs (q : Seq) (s : State) : (setSeq q s).cs = s.cs := rfl
@[simp] theorem setSeq_lines (q : Seq) (s : State) : (setSeq q s).lines = s.lines := rfl
@[simp] theorem setSeq_tr (q : Seq) (s : State) : (setSeq q s).tr = s.tr := rfl
@[simp] theorem setSeq_seq (q : Seq) (s : State) : (setSeq q s).seq = q := rfl
@[simp] theorem setSeq_responses (q : Seq) (s : State) : (setSeq q s).responses = s.responses := rfl
@[simp] theorem setSeq_host (q : Seq) (s : State) : (setSeq q s).host = s.host := rfl

@[simp] theorem setHost_cs (h : List HostAct) (s : State) : (setHost h s).cs = s.cs := rfl
@[simp] theorem setHost_lines (h : List HostAct) (s : State) : (setHost h s).lines = s.lines := rfl
@[simp] theorem setHost_tr (h : List HostAct) (s : State) : (setHost h s).tr = s.tr := rfl
@[simp] theorem setHost_seq (h : List HostAct) (s : State) : (setHost h s).seq = s.seq := rfl
@[simp] theorem setHost_responses (h : List HostAct) (s : State) : (setHost h s).responses = s.responses := rfl
@[simp] theorem setHost_host (h : List HostAct) (s : State) : (setHost h s).host = h := rfl

@[simp] theorem deliver_cs (v : BitVec 2) (s : State) : (deliver v s).cs = s.cs := rfl
@[simp] theorem deliver_lines (v : BitVec 2) (s : State) : (deliver v s).lines = s.lines := rfl
@[simp] theorem deliver_tr (v : BitVec 2) (s : State) : (deliver v s).tr = s.tr := rfl
@[simp] theorem deliver_seq (v : BitVec 2) (s : State) : (deliver v s).seq = s.seq := rfl
@[simp] theorem deliver_responses (v : BitVec 2) (s : State) : (deliver v s).responses = s.responses ++ [v] := rfl
@[simp] theorem deliver_host (v : BitVec 2) (s : State) : (deliver v s).host = s.host := rfl

@[simp] theorem emit_cs (e : Event) (s : State) : (emit e s).cs = s.cs := rfl
@[simp] theorem emit_lines (e : Event) (s : State) : (emit e s).lines = applyEvent s.lines e := rfl
@[simp] theorem emit_tr (e : Event) (s : State) : (emit e s).tr = s.tr ++ [e] := rfl
@[simp] theorem emit_seq (e : Event) (s : State) : (emit e s).seq = s.seq := rfl
@[simp] theorem emit_responses (e : Event) (s : State) : (emit e s).responses = s.responses := rfl
@[simp] theorem emit_host (e : Event) (s : State) : (emit e s).host = s.host := rfl

@[simp] theorem takeReset_cs (h : List HostAct) : (takeReset h).cs = State.reset.cs := rfl
@[simp] theorem takeReset_lines (h : List HostAct) : (takeReset h).lines = State.reset.lines := rfl
@[simp] theorem takeReset_tr (h : List HostAct) : (takeReset h).tr = State.reset.tr := rfl
@[simp] theorem takeReset_seq (h : List HostAct) : (takeReset h).seq = State.reset.seq := rfl
@[simp] theorem takeReset_responses (h : List HostAct) : (takeReset h).responses = State.reset.responses := rfl
@[simp] theorem takeReset_host (h : List HostAct) : (takeReset h).host = h := rfl

@[simp] theorem reset_lines : State.reset.lines = Lines.reset := rfl
@[simp] theorem reset_tr : State.reset.tr = [] := rfl
@[simp] theorem reset_seq : State.reset.seq = .idle := rfl
@[simp] theorem reset_responses : State.reset.responses = [] := rfl
@[simp] theorem reset_host : State.reset.host = [] := rfl

@[simp] theorem applyEvent_setMode (l : Lines) (v : Level) :
    applyEvent l (.setMode v) = { l with mode := some v } := rfl
@[simp] theorem applyEvent_setNibbles (l : Lines) (lo hi : Nibble) :
    applyEvent l (.setNibbles lo hi) = { l with portLo := some lo, portHi := some hi } := rfl
@[simp] theorem applyEvent_delay (l : Lines) (n : Nat) : applyEvent l (.delay n) = l := rfl
@[simp] theorem applyEvent_setStrobe (l : Lines) (v : Level) :
    applyEvent l (.setStrobe v) = { l with wr := v } := rfl

end Sys2Proof.Machine
end

