-- ==== Sys2Proof/Laws/Bus.lean ====
section
/-! SUPPORT. Laws/Bus.lean: what `Emit`, `BusWrite` and the eager push do, said once, and the transaction
view of what they append. -/

namespace Sys2Proof.Machine

/-- Performing events appends them to the trace and folds them into the latches, and that is all. -/
theorem emitAll_eq (es : List Event) (s : State) :
    emitAll es s = { s with tr := s.tr ++ es, lines := es.foldl applyEvent s.lines } := by
  induction es generalizing s with
  | nil => simp [emitAll]
  | cons e es ih => simp [emitAll, ih]

/-- After a transaction the latches do not depend on what they were (R107). -/
theorem foldl_busEvents (m : Level) (b : Byte) (l : Lines) :
    (busEvents m b).foldl applyEvent l =
      { mode := some m, portLo := some (lowNibble b), portHi := some (highNibble b), wr := true } :=
  rfl

@[simp] theorem busEvents_length (m : Level) (b : Byte) : (busEvents m b).length = 6 := rfl

@[simp] theorem busWrite_cs (m : Level) (b : Byte) (s : State) : (busWrite m b s).cs = s.cs := rfl
@[simp] theorem busWrite_seq (m : Level) (b : Byte) (s : State) : (busWrite m b s).seq = s.seq := rfl
@[simp] theorem busWrite_responses (m : Level) (b : Byte) (s : State) :
    (busWrite m b s).responses = s.responses := rfl
@[simp] theorem busWrite_host (m : Level) (b : Byte) (s : State) :
    (busWrite m b s).host = s.host := rfl
@[simp] theorem busWrite_tr (m : Level) (b : Byte) (s : State) :
    (busWrite m b s).tr = s.tr ++ busEvents m b := by
  simp [busWrite, emitAll_eq]
@[simp] theorem busWrite_lines (m : Level) (b : Byte) (s : State) :
    (busWrite m b s).lines =
      { mode := some m, portLo := some (lowNibble b), portHi := some (highNibble b), wr := true } :=
  rfl

@[simp] theorem pushChipState_cs (c : Byte) (s : State) : (pushChipState c s).cs = c := rfl
@[simp] theorem pushChipState_seq (c : Byte) (s : State) : (pushChipState c s).seq = s.seq := rfl
@[simp] theorem pushChipState_responses (c : Byte) (s : State) :
    (pushChipState c s).responses = s.responses := rfl
@[simp] theorem pushChipState_host (c : Byte) (s : State) : (pushChipState c s).host = s.host := rfl
@[simp] theorem pushChipState_tr (c : Byte) (s : State) :
    (pushChipState c s).tr = s.tr ++ busEvents true c := by
  simp [pushChipState]
@[simp] theorem pushChipState_lines (c : Byte) (s : State) :
    (pushChipState c s).lines =
      { mode := some true, portLo := some (lowNibble c), portHi := some (highNibble c), wr := true } :=
  rfl

/-- The two groups together carry the whole byte (R45). -/
@[simp] theorem joinNibbles_nibbles (b : Byte) :
    joinNibbles (lowNibble b) (highNibble b) = b := by
  revert b; decide

/-- A transaction at the head of a trace is one entry of its transaction view (R51). -/
theorem txView_busEvents (m : Level) (b : Byte) (tr : List Event) :
    txView (busEvents m b ++ tr) = (txView tr).map ((m, b) :: ·) := by
  simp [busEvents, txView]

/-- A trace with a transaction view is exactly a run of transaction shapes: appending to it appends to
the view. -/
theorem txView_append (tr more : List Event) (txs : List (Level × Byte))
    (h : txView tr = some txs) : txView (tr ++ more) = (txView more).map (txs ++ ·) := by
  induction tr using txView.induct generalizing txs with
  | case1 =>
    simp only [txView, Option.some.injEq] at h
    subst h
    cases hm : txView more <;> simp [hm]
  | case2 m lo hi n1 n2 rest ih =>
    simp only [txView, Option.map_eq_some_iff] at h
    obtain ⟨rs, hrs, rfl⟩ := h
    simp [txView, ih rs hrs, Function.comp_def]
  | case3 tr h1 h2 => simp [txView] at h

/-- The last control word after more transactions. -/
theorem lastControl_append (xs ys : List (Level × Byte)) :
    lastControl (xs ++ ys) = (lastControl ys).or (lastControl xs) := by
  induction xs with
  | nil => simp [lastControl]
  | cons x xs ih =>
    obtain ⟨m, b⟩ := x
    rw [List.cons_append]
    simp only [lastControl, ih]
    cases lastControl ys <;> simp

end Sys2Proof.Machine
end

