-- ==== Sys2Proof/Laws/ChipState.lean ====
section
/-! SUPPORT. Laws/ChipState.lean: each mutator of `CS` bit by bit, the decode mode by its two bits, and the
transaction of Safety against the machine's. -/

namespace Sys2Proof.Machine

/-- SET_DIGIT's byte: the low three bits from the operand, the others kept (R99). -/
theorem getLsbD_setdigit (c a : Byte) (k : Nat) :
    (setdigit c a).getLsbD k = if k < 3 then a.getLsbD k else c.getLsbD k := by
  by_cases hk : k < 8
  · interval_cases k <;> simp [setdigit]
  · simp [setdigit, BitVec.getLsbD_of_ge, Nat.le_of_not_lt hk]

/-- SET_DECODING's byte: bits 6 and 5 from the mode, the others kept (R97, R98). -/
theorem getLsbD_setdec (c : Byte) (m : ModeOperand) (k : Nat) :
    (setdec c m).getLsbD k =
      if k = 5 then decide (m = .noDecoding ∨ m = .unrecognised)
      else if k = 6 then decide (m = .hex)
      else c.getLsbD k := by
  by_cases hk : k < 8
  · cases m <;> interval_cases k <;> simp [setdec]
  · have h8 : 8 ≤ k := Nat.le_of_not_lt hk
    simp [BitVec.getLsbD_of_ge, h8, show k ≠ 5 by omega, show k ≠ 6 by omega]

/-- TURN_ON's byte: bit 4 set, the others kept (R90). -/
theorem getLsbD_setOperating (c : Byte) (k : Nat) :
    (setOperating c).getLsbD k = if k = 4 then true else c.getLsbD k := by
  by_cases hk : k < 8
  · interval_cases k <;> simp [setOperating]
  · have h8 : 8 ≤ k := Nat.le_of_not_lt hk
    simp [BitVec.getLsbD_of_ge, h8, show k ≠ 4 by omega]

/-- TURN_OFF's byte: bit 4 clear, the others kept (R91). -/
theorem getLsbD_setShutdown (c : Byte) (k : Nat) :
    (setShutdown c).getLsbD k = if k = 4 then false else c.getLsbD k := by
  by_cases hk : k < 8
  · interval_cases k <;> simp [setShutdown]
  · have h8 : 8 ≤ k := Nat.le_of_not_lt hk
    simp [BitVec.getLsbD_of_ge, h8]

/-- The decode mode by bits 5 and 6 (R28). -/
theorem decodeModeOf_eq (c : Byte) :
    decodeModeOf c =
      if c.getLsbD 5 then .noDecoding else if c.getLsbD 6 then .hex else .codeB := by
  revert c; decide

/-- The decimal-point bit (R69, R83). -/
theorem dpBit_eq (p : Bool) : dpBit p = if p then 0x00#8 else 0x80#8 := by
  cases p <;> rfl

end Sys2Proof.Machine

namespace Sys2Proof.Safety

open Sys2Proof.Machine

theorem low_eq (b : Byte) : low b = lowNibble b := by
  revert b; decide

theorem high_eq (b : Byte) : high b = highNibble b := by
  revert b; decide

/-- The transaction written out from R102 is what `BusWrite` appends. -/
theorem transaction_eq (m : Level) (b : Byte) : transaction m b = busEvents m b := by
  simp [transaction, busEvents, low_eq, high_eq]

theorem linesAfter_eq (m : Level) (b : Byte) :
    linesAfter m b =
      { mode := some m, portLo := some (lowNibble b), portHi := some (highNibble b), wr := true } := by
  simp [linesAfter, low_eq, high_eq]

theorem transactions_append (xs ys : List (Level × Byte)) :
    transactions (xs ++ ys) = transactions xs ++ transactions ys := by
  induction xs with
  | nil => rfl
  | cons x xs ih => simp [transactions, ih]

theorem tSettle_bound : 50 ≤ Config.tSettle := Nat.le_add_right _ _

theorem tStrobe_bound : 250 ≤ Config.tStrobe := Nat.le_add_right _ _

end Sys2Proof.Safety
end

