-- ==== Sys2Proof/Laws/Decode.lean ====
section
/-! SUPPORT. Laws/Decode.lean: the packed command word bit by bit, its fields read back, and a word packed
from its own fields. -/

namespace Sys2Proof

/-- Bit `k` of a packed command word (R63). -/
theorem getLsbD_packCommand (op a v : Byte) (m : BitVec 2) (p : Bool) (k : Nat) :
    (packCommand op a v m p).getLsbD k =
      if k < 1 then p
      else if k < 3 then m.getLsbD (k - 1)
      else if k < 8 then false
      else if k < 16 then v.getLsbD (k - 8)
      else if k < 24 then a.getLsbD (k - 16)
      else op.getLsbD (k - 24) := by
  simp only [packCommand, BitVec.getLsbD_append, BitVec.getLsbD_ofBool, Nat.sub_sub]
  split_ifs <;> first | omega | simp_all

@[simp] theorem fieldA_packCommand (op a v : Byte) (m : BitVec 2) (p : Bool) :
    fieldA (packCommand op a v m p) = a := by
  apply BitVec.eq_of_getLsbD_eq
  intro k hk
  simp only [fieldA, BitVec.getLsbD_extractLsb', getLsbD_packCommand]
  split_ifs <;> first | omega | simp [hk]

@[simp] theorem fieldOp_packCommand (op a v : Byte) (m : BitVec 2) (p : Bool) :
    fieldOp (packCommand op a v m p) = op := by
  apply BitVec.eq_of_getLsbD_eq
  intro k hk
  simp only [fieldOp, BitVec.getLsbD_extractLsb', getLsbD_packCommand]
  split_ifs <;> first | omega | simp [hk]

@[simp] theorem fieldV_packCommand (op a v : Byte) (m : BitVec 2) (p : Bool) :
    fieldV (packCommand op a v m p) = v := by
  apply BitVec.eq_of_getLsbD_eq
  intro k hk
  simp only [fieldV, BitVec.getLsbD_extractLsb', getLsbD_packCommand]
  split_ifs <;> first | omega | simp [hk]

@[simp] theorem fieldZ_packCommand (op a v : Byte) (m : BitVec 2) (p : Bool) :
    fieldZ (packCommand op a v m p) = 0#5 := by
  apply BitVec.eq_of_getLsbD_eq
  intro k hk
  simp only [fieldZ, BitVec.getLsbD_extractLsb', getLsbD_packCommand]
  split_ifs <;> first | omega | simp [hk]

@[simp] theorem fieldM_packCommand (op a v : Byte) (m : BitVec 2) (p : Bool) :
    fieldM (packCommand op a v m p) = m := by
  apply BitVec.eq_of_getLsbD_eq
  intro k hk
  simp only [fieldM, BitVec.getLsbD_extractLsb', getLsbD_packCommand]
  split_ifs <;> first | omega | simp [hk]

@[simp] theorem fieldP_packCommand (op a v : Byte) (m : BitVec 2) (p : Bool) :
    fieldP (packCommand op a v m p) = p := by
  simp only [fieldP, getLsbD_packCommand]
  rfl

/-- A word with zero in bits 7:3 is packed from its fields. -/
theorem packCommand_fields (w : BitVec 32) (h : fieldZ w = 0#5) :
    packCommand (fieldOp w) (fieldA w) (fieldV w) (fieldM w) (fieldP w) = w := by
  apply BitVec.eq_of_getLsbD_eq
  intro k hk
  rw [getLsbD_packCommand]
  simp only [fieldOp, fieldA, fieldV, fieldM, fieldP, BitVec.getLsbD_extractLsb']
  have hz : ∀ j, j < 5 → w.getLsbD (3 + j) = false := by
    intro j hj
    have := congrArg (·.getLsbD j) h
    simpa [fieldZ, hj] using this
  split_ifs with h1 h2 h3 h4 h5
  · congr 1; omega
  · simp [show k - 1 < 2 by omega, show 1 + (k - 1) = k by omega]
  · have := hz (k - 3) (by omega)
    rw [show 3 + (k - 3) = k by omega] at this
    exact this.symm
  · simp [show k - 8 < 8 by omega, show 8 + (k - 8) = k by omega]
  · simp [show k - 16 < 8 by omega, show 16 + (k - 16) = k by omega]
  · simp [show k - 24 < 8 by omega, show 24 + (k - 24) = k by omega]

/-- The bitwise and of two packed words is packed from the ands of their fields. -/
theorem packCommand_and (op a v op' a' v' : Byte) (m m' : BitVec 2) (p p' : Bool) :
    packCommand op a v m p &&& packCommand op' a' v' m' p' =
      packCommand (op &&& op') (a &&& a') (v &&& v') (m &&& m') (p && p') := by
  apply BitVec.eq_of_getLsbD_eq
  intro k hk
  simp only [BitVec.getLsbD_and, getLsbD_packCommand]
  split_ifs <;> simp

@[simp] theorem modeOfCode_codeOfMode (m : ModeOperand) : modeOfCode (codeOfMode m) = m := by
  cases m <;> rfl

@[simp] theorem codeOfMode_modeOfCode (c : BitVec 2) : codeOfMode (modeOfCode c) = c := by
  revert c; decide

/-- When the format's checks pass, and only then, the instruction is answered (R72). -/
theorem whenUnusedZero_eq_ok {w : BitVec 32} {b : Bool} {i j : Instr} :
    whenUnusedZero w b i = .ok j ↔ fieldZ w = 0#5 ∧ b = true ∧ i = j := by
  unfold whenUnusedZero
  split_ifs <;> simp_all

/-- Two command words are equal when all their fields are (R63). -/
theorem word_eq_of_fields {w x : BitVec 32} (hop : fieldOp w = fieldOp x) (ha : fieldA w = fieldA x)
    (hv : fieldV w = fieldV x) (hz : fieldZ w = fieldZ x) (hm : fieldM w = fieldM x)
    (hp : fieldP w = fieldP x) : w = x := by
  have bit {n s : Nat} (h : w.extractLsb' s n = x.extractLsb' s n) (j : Nat) (hj : j < n) :
      w.getLsbD (s + j) = x.getLsbD (s + j) := by
    have := congrArg (·.getLsbD j) h
    simpa [hj] using this
  apply BitVec.eq_of_getLsbD_eq
  intro k hk
  rcases Nat.lt_or_ge k 1 with h1 | h1
  · have : k = 0 := by omega
    subst this
    exact hp
  rcases Nat.lt_or_ge k 3 with h3 | h3
  · simpa [show 1 + (k - 1) = k by omega] using bit hm (k - 1) (by omega)
  rcases Nat.lt_or_ge k 8 with h8 | h8
  · simpa [show 3 + (k - 3) = k by omega] using bit hz (k - 3) (by omega)
  rcases Nat.lt_or_ge k 16 with h16 | h16
  · simpa [show 8 + (k - 8) = k by omega] using bit hv (k - 8) (by omega)
  rcases Nat.lt_or_ge k 24 with h24 | h24
  · simpa [show 16 + (k - 16) = k by omega] using bit ha (k - 16) (by omega)
  · simpa [show 24 + (k - 24) = k by omega] using bit hop (k - 24) (by omega)

@[simp] theorem fieldOp_and (w x : BitVec 32) : fieldOp (w &&& x) = fieldOp w &&& fieldOp x :=
  BitVec.extractLsb'_and
@[simp] theorem fieldA_and (w x : BitVec 32) : fieldA (w &&& x) = fieldA w &&& fieldA x :=
  BitVec.extractLsb'_and
@[simp] theorem fieldV_and (w x : BitVec 32) : fieldV (w &&& x) = fieldV w &&& fieldV x :=
  BitVec.extractLsb'_and
@[simp] theorem fieldZ_and (w x : BitVec 32) : fieldZ (w &&& x) = fieldZ w &&& fieldZ x :=
  BitVec.extractLsb'_and
@[simp] theorem fieldM_and (w x : BitVec 32) : fieldM (w &&& x) = fieldM w &&& fieldM x :=
  BitVec.extractLsb'_and
@[simp] theorem fieldP_and (w x : BitVec 32) : fieldP (w &&& x) = (fieldP w && fieldP x) :=
  BitVec.getLsbD_and

end Sys2Proof
end

