-- ==== Sys2Proof/Laws/Observer.lean ====
section
/-! SUPPORT. Laws/Observer.lean: the display shadow's memory keeps its canonical form, and a read after a
write gives what was written there and what was before elsewhere. -/

namespace Sys2Proof.Machine

theorem cellsAbove_mono {a b : Nat} (hab : a ≤ b) {cells : List Host.Cell}
    (h : cellsAbove b cells = true) : cellsAbove a cells = true := by
  induction cells with
  | nil => rfl
  | cons x rest ih =>
    simp only [cellsAbove, Bool.and_eq_true, decide_eq_true_eq] at h ⊢
    exact ⟨by omega, ih h.2⟩

theorem cellsAbove_cellWrite {k a : Nat} (hka : k < a) (v : Byte) {cells : List Host.Cell}
    (h : cellsAbove k cells = true) : cellsAbove k (cellWrite a v cells) = true := by
  induction cells with
  | nil => simp [cellWrite, cellsAbove, hka]
  | cons x rest ih =>
    simp only [cellsAbove, Bool.and_eq_true, decide_eq_true_eq] at h
    simp only [cellWrite]
    split
    · simp [cellsAbove, hka, h.1, h.2]
    · split
      · simp [cellsAbove, hka, h.2]
      · simp [cellsAbove, h.1, ih h.2]

/-- A write keeps the addresses strictly rising. -/
theorem cellsRising_cellWrite (a : Nat) (v : Byte) {cells : List Host.Cell}
    (h : cellsRising cells = true) : cellsRising (cellWrite a v cells) = true := by
  induction cells with
  | nil => rfl
  | cons x rest ih =>
    simp only [cellsRising, Bool.and_eq_true] at h
    simp only [cellWrite]
    split
    · rename_i hlt
      simp [cellsRising, cellsAbove, hlt, h.1, h.2, cellsAbove_mono (Nat.le_of_lt hlt) h.1]
    · split
      · rename_i heq
        subst heq
        simp [cellsRising, h.1, h.2]
      · have hlt : x.1 < a := by omega
        simp [cellsRising, cellsAbove_cellWrite hlt v h.1, ih h.2]

theorem cellsInRange_cellWrite {a : Nat} (ha : a < 16) (v : Byte) {cells : List Host.Cell}
    (h : cellsInRange cells = true) : cellsInRange (cellWrite a v cells) = true := by
  induction cells with
  | nil => simp [cellWrite, cellsInRange, ha]
  | cons x rest ih =>
    simp only [cellsInRange, Bool.and_eq_true, decide_eq_true_eq] at h
    simp only [cellWrite]
    split
    · simp [cellsInRange, ha, h.1, h.2]
    · split
      · simp [cellsInRange, ha, h.2]
      · simp [cellsInRange, h.1, ih h.2]

/-- A write inside the sixteen cells keeps the canonical form. -/
theorem memory_wf_cellWrite {a : Nat} (ha : a < 16) (v : Byte) {cells : List Host.Cell}
    (h : Memory.wf cells = true) : Memory.wf (cellWrite a v cells) = true := by
  simp only [Memory.wf, Bool.and_eq_true] at h ⊢
  exact ⟨cellsRising_cellWrite a v h.1, cellsInRange_cellWrite ha v h.2⟩

theorem memory_wf_reset : Memory.wf Shadow.reset.disp = true := rfl

/-- A read after a write to the same cell. -/
theorem cellRead_cellWrite_same (a : Nat) (v : Byte) (cells : List Host.Cell) :
    cellRead a (cellWrite a v cells) = some v := by
  induction cells with
  | nil => simp [cellWrite, cellRead]
  | cons x rest ih =>
    simp only [cellWrite]
    split
    · simp [cellRead]
    · split
      · simp [cellRead]
      · simp [cellRead, *]

/-- A write leaves every other cell alone. -/
theorem cellRead_cellWrite_other {a k : Nat} (hk : k ≠ a) (v : Byte) (cells : List Host.Cell) :
    cellRead k (cellWrite a v cells) = cellRead k cells := by
  induction cells with
  | nil => simp [cellWrite, cellRead, hk]
  | cons x rest ih =>
    simp only [cellWrite]
    split
    · simp [cellRead, hk]
    · split
      · rename_i h
        simp [cellRead, hk, h ▸ hk]
      · simp [cellRead, ih]

/-- The target of a control word is one of the sixteen cells. -/
theorem dispTarget_lt (c : Byte) : dispTarget c < 16 := by
  have h := (csDigit c).isLt
  unfold dispTarget dispAddress
  cases csBank c <;> simp <;> omega

end Sys2Proof.Machine
end

