-- ==== Sys2Proof/Laws/PerInstr.lean ====
section
/-! SUPPORT. Laws/PerInstr.lean: for every instruction, its encoded word has the instruction's format and
selects the instruction's row of the opcode table (30_encoding.md R71). -/

namespace Sys2Proof.Laws.EncodeSelectsRow

/-- The encoded word is of the instruction's format and satisfies `(w & mask) == match` for its row. -/
def Statement (i : Instr) : Prop :=
  match encode i with
  | .host w => ∃ row, commandRow i = some row ∧ selectsRow w row = true
  | .bus w => ∃ row, busRow i = some row ∧ w &&& row.2 = row.1

/-- The row test of a packed word, with the mask given by its fields. -/
theorem selectsRow_packCommand (op a v opk ak vk : Byte) (m mk : BitVec 2) (p pk : Bool)
    (row : BitVec 32 × BitVec 32) (z : BitVec 32)
    (hmask : row.2 = packCommand opk ak vk mk pk ||| z) (hz : packCommand op a v m p &&& z = 0#32)
    (hmatch : packCommand (op &&& opk) (a &&& ak) (v &&& vk) (m &&& mk) (p && pk) = row.1) :
    selectsRow (packCommand op a v m p) row = true := by
  simp [selectsRow, hmask, BitVec.and_or_distrib_left, packCommand_and, hz, hmatch]

/-- Bits 7:3 of a packed word are zero. -/
theorem packCommand_and_z (op a v : Byte) (m : BitVec 2) (p : Bool) :
    packCommand op a v m p &&& 0xF8#32 = 0#32 := by
  apply BitVec.eq_of_getLsbD_eq
  intro k hk
  have hbits : ∀ k < 32, (0xF8#32).getLsbD k = true → 3 ≤ k ∧ k < 8 := by decide
  rw [BitVec.getLsbD_and, getLsbD_packCommand]
  cases hb : (0xF8#32).getLsbD k
  · simp
  · obtain ⟨h3, h8⟩ := hbits k hk hb
    simp [show ¬k < 1 by omega, show ¬k < 3 by omega, h8]

theorem updateDigit (a : Byte) (m : ModeOperand) (v : Byte) (p : Bool) :
    Statement (.updateDigit a m v p) :=
  ⟨_, rfl, selectsRow_packCommand _ _ _ 0xFF#8 0#8 0#8 _ 0#2 _ false _ 0xF8#32 rfl
    (packCommand_and_z _ _ _ _ _) (by simp; rfl)⟩

theorem turnOn : Statement .turnOn := ⟨_, rfl, rfl⟩

theorem turnOff : Statement .turnOff := ⟨_, rfl, rfl⟩

theorem decodeType : Statement .decodeType := ⟨_, rfl, rfl⟩

theorem setDecoding (m : ModeOperand) : Statement (.setDecoding m) := by
  cases m <;> exact ⟨_, rfl, rfl⟩

theorem setDigit (a : Byte) : Statement (.setDigit a) :=
  ⟨_, rfl, selectsRow_packCommand _ _ _ 0xFF#8 0#8 0xFF#8 _ 3#2 _ true _ 0xF8#32 rfl
    (packCommand_and_z _ _ _ _ _) (by simp; rfl)⟩

theorem ctrlXact (a : Byte) : Statement (.ctrlXact a) :=
  ⟨_, rfl, selectsRow_packCommand _ _ _ 0xFF#8 0#8 0xFF#8 _ 3#2 _ true _ 0xF8#32 rfl
    (packCommand_and_z _ _ _ _ _) (by simp; rfl)⟩

theorem dataXact (a : Byte) : Statement (.dataXact a) :=
  ⟨_, rfl, selectsRow_packCommand _ _ _ 0xFF#8 0#8 0xFF#8 _ 3#2 _ true _ 0xF8#32 rfl
    (packCommand_and_z _ _ _ _ _) (by simp; rfl)⟩

/-- A bus word's bit 8 is what its mask keeps (R62). -/
theorem bus_and (b : BitVec 1) (x : Byte) : (b ++ x) &&& 0x100#9 = b ++ 0#8 := by
  rw [show (0x100#9) = (1#1 ++ 0#8 : BitVec 9) from rfl]
  apply BitVec.eq_of_getLsbD_eq
  intro k hk
  simp only [BitVec.getLsbD_and, BitVec.getLsbD_append]
  split
  · simp
  · rw [show k - 8 = 0 by omega]
    simp

theorem busCtrl (dc hex nd sd bank : Bool) (digit : BitVec 3) :
    Statement (.busCtrl dc hex nd sd bank digit) :=
  ⟨_, rfl, bus_and _ _⟩

theorem busData (dpn : Bool) (payload : BitVec 7) : Statement (.busData dpn payload) :=
  ⟨_, rfl, bus_and _ _⟩

end Sys2Proof.Laws.EncodeSelectsRow
end

