-- ==== Sys2Proof/Laws/Sequencer.lean ====
section
/-! SUPPORT. Laws/Sequencer.lean: what one event step and one acceptance can do, each said once. -/

namespace Sys2Proof.Machine

/-- A command with events starts at event 0; DECODE_TYPE, and only it, has none and answers at once. -/
theorem acceptCommand_cases (i : Instr) (s : State) :
    (parts i = [] ∧ acceptCommand i s = deliver s.rspCode s) ∨
      (parts i ≠ [] ∧ acceptCommand i s = setSeq (.run i 0) s) := by
  unfold acceptCommand
  split <;> simp_all

theorem parts_eq_nil_iff (i : Instr) : parts i = [] ↔ i = .decodeType := by
  cases i <;> simp [parts]

/-- An index inside the event list lies in one of the command's transactions. -/
theorem part_of_index {cmd : Instr} {i : Nat} (h : i < eventCount cmd) :
    ∃ part, (parts cmd)[i / 6]? = some part := by
  have : i / 6 < (parts cmd).length := by
    unfold eventCount at h
    omega
  exact ⟨(parts cmd)[i / 6], List.getElem?_eq_getElem this⟩

/-- Event `k < 6` of a transaction exists. -/
theorem busEvents_getElem? {m : Level} {b : Byte} {k : Nat} (h : k < 6) :
    ∃ e, (busEvents m b)[k]? = some e :=
  ⟨(busEvents m b)[k]'(by simpa using h), List.getElem?_eq_getElem (by simpa using h)⟩

/-- What an event step does at an index inside the event list: the mutation at the first event of a
transaction, then the event, then the pointer (R32, R81). -/
theorem eventStep_of_lt {cmd : Instr} {i : Nat} {part : Part} {e : Event} {s : State}
    (hp : (parts cmd)[i / 6]? = some part)
    (he : (busEvents part.level
      (carriedByte (if i % 6 = 0 then changeCs s.cs part.change else s.cs) part.carried))[i % 6]? =
        some e) :
    eventStep cmd i s =
      { s with
        cs := if i % 6 = 0 then changeCs s.cs part.change else s.cs
        tr := s.tr ++ [e]
        lines := applyEvent s.lines e
        seq := nextSeq cmd i } := by
  unfold eventStep emitPartEvent
  rw [hp]
  by_cases h0 : i % 6 = 0
  · simp only [h0, if_true, writeCs_cs] at he ⊢
    rw [he]
    rfl
  · simp only [h0, if_false] at he ⊢
    rw [he]
    rfl

@[simp] theorem emitPartEvent_responses (part : Part) (k : Nat) (s : State) :
    (emitPartEvent part k s).responses = s.responses := by
  unfold emitPartEvent
  split <;> rfl

@[simp] theorem emitPartEvent_host (part : Part) (k : Nat) (s : State) :
    (emitPartEvent part k s).host = s.host := by
  unfold emitPartEvent
  split <;> rfl

@[simp] theorem eventStep_responses (cmd : Instr) (i : Nat) (s : State) :
    (eventStep cmd i s).responses = s.responses := by
  unfold eventStep
  split
  · rfl
  · simp only [setSeq_responses, emitPartEvent_responses]
    split <;> rfl

@[simp] theorem eventStep_host (cmd : Instr) (i : Nat) (s : State) :
    (eventStep cmd i s).host = s.host := by
  unfold eventStep
  split
  · rfl
  · simp only [setSeq_host, emitPartEvent_host]
    split <;> rfl

/-- What one step can do: reset, an event of the running command, nothing, a whole command, or the
acceptance of one; a step that answers next does one of these. -/
theorem step_cases {s t : State} (h : step s = .next t) :
    (∃ rest, s.host = .reset :: rest ∧ t = takeReset rest) ∨
    (∃ cmd i hs, s.seq = .run cmd i ∧ (hs = s.host ∨ s.host = .pass :: hs) ∧
      t = eventStep cmd i (setHost hs s)) ∨
    (s.seq = .idle ∧ ∃ hs, (hs = s.host ∨ s.host = .pass :: hs) ∧ t = setHost hs s) ∨
    (s.seq = .idle ∧ ∃ c i rest, s.host = .issue c :: rest ∧ decode c = .ok i ∧
      exec i (setHost rest s) = .next t) ∨
    (s.seq = .idle ∧ ∃ c i rest, s.host = .start c :: rest ∧ decode c = .ok i ∧
      t = acceptCommand i (setHost rest s)) := by
  unfold step at h
  split at h
  · rename_i rest hh
    cases h
    exact .inl ⟨rest, hh, rfl⟩
  · rename_i rest hh
    split at h
    · rename_i cmd i hq
      cases h
      exact .inr (.inl ⟨cmd, i, rest, hq, .inr hh, rfl⟩)
    · rename_i hq
      cases h
      exact .inr (.inr (.inl ⟨hq, rest, .inr hh, rfl⟩))
  · rename_i c rest hh
    split at h
    · rename_i cmd i hq
      cases h
      exact .inr (.inl ⟨cmd, i, s.host, hq, .inl rfl, rfl⟩)
    · rename_i hq
      unfold runWhole at h
      split at h
      · rename_i i hd
        exact .inr (.inr (.inr (.inl ⟨hq, c, i, rest, hh, hd, h⟩)))
      · cases h
  · rename_i c rest hh
    split at h
    · rename_i cmd i hq
      cases h
      exact .inr (.inl ⟨cmd, i, s.host, hq, .inl rfl, rfl⟩)
    · rename_i hq
      unfold runByEvents at h
      split at h
      · rename_i i hd
        cases h
        exact .inr (.inr (.inr (.inr ⟨hq, c, i, rest, hh, hd, rfl⟩)))
      · cases h
  · rename_i hh
    split at h
    · rename_i cmd i hq
      cases h
      exact .inr (.inl ⟨cmd, i, s.host, hq, .inl rfl, rfl⟩)
    · rename_i hq
      cases h
      exact .inr (.inr (.inl ⟨hq, s.host, .inl rfl, rfl⟩))

/-- A running command with nothing let pass and no reset takes an event step. -/
theorem step_of_run {s : State} {cmd : Instr} {i : Nat} (hs : s.seq = .run cmd i)
    (hw : Safety.waitsForReady s.host = true) : step s = .next (eventStep cmd i s) := by
  unfold step
  split <;> rename_i hh <;> simp [hh, Safety.waitsForReady] at hw <;> simp [hs]

/-- One more step of a run. -/
theorem stepN_succ {s t : State} (n : Nat) (h : step s = .next t) :
    Safety.stepN (n + 1) s = Safety.stepN n t := by
  simp [Safety.stepN, h]

/-! ## The events left -/

@[simp] theorem transaction_length (m : Level) (b : Byte) : (Safety.transaction m b).length = 6 := rfl

/-- Whole transactions are six events each. -/
theorem eventsOf_length (c : Byte) (ps : List Part) :
    (Safety.eventsOf c ps).length = 6 * ps.length := by
  induction ps generalizing c with
  | nil => rfl
  | cons part ps ih =>
    simp [Safety.eventsOf, ih]
    omega

/-- The events left at `i` are event `i` and the events left at `i + 1`, for the `CS` event `i` sees. -/
theorem eventsLeft_cons {cmd : Instr} {i : Nat} {c : Byte} {part : Part} {e : Event}
    (hp : (parts cmd)[i / 6]? = some part)
    (he : (Safety.transaction part.level
      (carriedByte (Safety.chipStateAt part i c) part.carried))[i % 6]? = some e) :
    Safety.eventsLeft cmd i c = e :: Safety.eventsLeft cmd (i + 1) (Safety.chipStateAt part i c) ∧
      Safety.chipStateAtEnd cmd i c =
        Safety.chipStateAtEnd cmd (i + 1) (Safety.chipStateAt part i c) := by
  obtain ⟨hlt, hpe⟩ := List.getElem?_eq_some_iff.1 hp
  obtain ⟨hl, hee⟩ := List.getElem?_eq_some_iff.1 he
  have hd : (parts cmd).drop (i / 6) = part :: (parts cmd).drop (i / 6 + 1) := by
    rw [List.drop_eq_getElem_cons hlt, hpe]
  have hdd := List.drop_eq_getElem_cons hl
  rw [hee] at hdd
  unfold Safety.eventsLeft Safety.chipStateAtEnd
  simp only [hd, hdd]
  by_cases h5 : i % 6 = 5
  · have h1 : (i + 1) / 6 = i / 6 + 1 := by omega
    have h2 : (i + 1) % 6 = 0 := by omega
    rw [h1, h2, List.drop_eq_nil_of_le (by simp; omega)]
    cases (parts cmd).drop (i / 6 + 1) <;>
      simp [Safety.eventsOf, Safety.chipStateAfter, Safety.chipStateAt, h2]
  · have h1 : (i + 1) / 6 = i / 6 := by omega
    have h2 : (i + 1) % 6 = i % 6 + 1 := by omega
    rw [h1, h2, hd]
    simp [Safety.chipStateAt, h2]

end Sys2Proof.Machine
end

