-- ==== Sys2Proof/Tests/Slice0.lean ====
section
/-! SUPPORT. Tests/Slice0.lean: small checks against the spec's own tables (95_test_vectors.md and the worked
examples of the operation rules), and a witness for every statement that has hypotheses. -/

namespace Sys2Proof.Tests

open Sys2Proof.Machine Sys2Proof.Safety

/-! ## Helpers -/

/-- An idle state with the given `CS`, nothing driven yet, nothing presented. -/
def at_ (c : Byte) : State :=
  { cs := c, lines := Lines.reset, tr := [], seq := .idle, responses := [], host := [] }

/-- `CS`, the transactions performed and the responses of an outcome that is a next state. -/
def seen (o : Host.Outcome State Fault Refusal) :
    Option (Byte × Option (List (Level × Byte)) × List (BitVec 2)) :=
  match o with
  | .next t => some (t.cs, txView t.tr, t.responses)
  | .fault _ => none
  | .refused _ => none

/-- The outcome is a next state. -/
def isNext (o : Host.Outcome State Fault Refusal) : Bool :=
  match o with
  | .next _ => true
  | .fault _ => false
  | .refused _ => false

/-! ## WellFormed: each check refuses what is not of its kind -/

theorem test_bus_word_is_no_command :
    (Instr.busCtrl false true false true true 0#3).isCommand = false ∧
      (Instr.busData true 0x0A#7).isCommand = false := by decide

theorem test_command_is_no_bus_word :
    Instr.turnOn.isBusWord = false ∧ (Instr.ctrlXact 0x58#8).isBusWord = false := by decide

theorem test_setter_is_not_public :
    (Instr.setDigit 3#8).isPublic = false ∧ (Instr.updateDigit 3#8 .hex 0#8 true).isPublic = true := by
  decide

theorem test_setter_is_not_raw :
    (Instr.setDigit 3#8).isRaw = false ∧ (Instr.dataXact 0#8).isRaw = true := by decide

theorem test_command_word_carries_no_bus_instruction :
    (Encoded.host 0x02000000#32).carries (.busData true 0#7) = false ∧
      (Encoded.bus 0x108#9).carries .turnOn = false := by decide

/-! ## Decoding: words written out from R60, R61, R63 and R71 (and 95_test_vectors.md section 2.6) -/

theorem test_decode_update_digit :
    decode (.host (0b00000001_00000011_00011010_00000_10_0#32)) =
      .ok (.updateDigit 3#8 .hex 0x1A#8 false) := by rfl

theorem test_decode_turn_on : decode (.host 0b00000010_00000000_00000000_00000000#32) = .ok .turnOn := by
  rfl

theorem test_decode_turn_off :
    decode (.host 0b00000011_00000000_00000000_00000000#32) = .ok .turnOff := by rfl

theorem test_decode_decode_type :
    decode (.host 0b00000100_00000000_00000000_00000000#32) = .ok .decodeType := by rfl

theorem test_decode_set_decoding :
    decode (.host 0b00000101_00000000_00000000_00000_10_0#32) = .ok (.setDecoding .hex) := by rfl

theorem test_decode_set_decoding_unrecognised :
    decode (.host 0b00000101_00000000_00000000_00000_11_0#32) = .ok (.setDecoding .unrecognised) := by
  rfl

theorem test_decode_set_digit :
    decode (.host 0b00000110_00000011_00000000_00000000#32) = .ok (.setDigit 3#8) := by rfl

theorem test_decode_ctrl_xact :
    decode (.host 0b00000111_01011000_00000000_00000000#32) = .ok (.ctrlXact 0x58#8) := by rfl

theorem test_decode_data_xact :
    decode (.host 0b00001000_10001010_00000000_00000000#32) = .ok (.dataXact 0x8A#8) := by rfl

theorem test_decode_bus_ctrl :
    decode (.bus 0b1_0_1_0_1_1_011#9) = .ok (.busCtrl false true false true true 3#3) := by rfl

theorem test_decode_bus_data : decode (.bus 0b0_1_0001010#9) = .ok (.busData true 0x0A#7) := by rfl

theorem test_decode_illegal_words :
    decode (.host 0x00000000#32) = .error .unassignedOp ∧
    decode (.host 0x02000001#32) = .error .unusedField ∧
    decode (.host 0x01031A0C#32) = .error .mustBeZero := ⟨rfl, rfl, rfl⟩

theorem test_table_words :
    decodeTableWord 32 0x01031A04 = some (.updateDigit 3#8 .hex 0x1A#8 false) ∧
    decodeTableWord 16 0x15B = some (.busCtrl false true false true true 3#3) ∧
    decodeTableWord 16 0x00F = some (.busData false 0x0F#7) ∧
    decodeTableWord 32 0 = none ∧ decodeTableWord 16 0x200 = none := by decide

/-! ## Operations: 95_test_vectors.md sections 1, 2.1 to 2.5 -/

theorem test_update_digit_hex :
    seen (exec (.updateDigit 3#8 .hex 0x1A#8 false) (at_ 0x18#8)) =
      some (0x5B#8, some [(true, 0x58#8), (true, 0x5B#8), (false, 0x8A#8)], []) := by decide

theorem test_update_digit_unrecognised_mode :
    seen (exec (.updateDigit 13#8 .unrecognised 0x5A#8 false) (at_ 0x18#8)) =
      some (0x3D#8, some [(true, 0x38#8), (true, 0x3D#8), (false, 0xDA#8)], []) := by decide

theorem test_turn_on_keeps_bit_7 :
    seen (exec .turnOn (at_ 0x88#8)) = some (0x98#8, some [(true, 0x98#8)], []) := by decide

theorem test_turn_off :
    seen (exec .turnOff (at_ 0x5B#8)) = some (0x4B#8, some [(true, 0x4B#8)], []) := by decide

theorem test_decode_type :
    seen (exec .decodeType (at_ 0x5F#8)) = some (0x5F#8, some [], [2#2]) ∧
    seen (exec .decodeType (at_ 0x7F#8)) = some (0x7F#8, some [], [1#2]) :=
  ⟨by decide, by decide⟩

theorem test_set_decoding_clears_first :
    seen (exec (.setDecoding .noDecoding) (at_ 0x5B#8)) =
      some (0x3B#8, some [(true, 0x3B#8)], []) ∧
    seen (exec (.setDecoding .hex) (at_ 0xFF#8)) = some (0xDF#8, some [(true, 0xDF#8)], []) :=
  ⟨by decide, by decide⟩

theorem test_set_digit_masks :
    seen (exec (.setDigit 0xFC#8) (at_ 0x5B#8)) = some (0x5C#8, some [(true, 0x5C#8)], []) := by decide

theorem test_ctrl_xact :
    exec (.ctrlXact 0x58#8) (at_ 0x08#8) = .next
      { at_ 0x08#8 with
        lines := { mode := some true, portLo := some 0x8#4, portHi := some 0x5#4, wr := true }
        tr := [.setMode true, .setNibbles 0x8#4 0x5#4, .delay Config.tSettle, .setStrobe false,
          .delay Config.tStrobe, .setStrobe true] } := by rfl

theorem test_data_xact :
    exec (.dataXact 0x8A#8) (at_ 0x08#8) = .next
      { at_ 0x08#8 with
        lines := { mode := some false, portLo := some 0xA#4, portHi := some 0x8#4, wr := true }
        tr := [.setMode false, .setNibbles 0xA#4 0x8#4, .delay Config.tSettle, .setStrobe false,
          .delay Config.tStrobe, .setStrobe true] } := by rfl

theorem test_bus_ctrl :
    seen (exec (.busCtrl false true false true true 3#3) (at_ 0x08#8)) =
      some (0x08#8, some [(true, 0x5B#8)], []) := by decide

theorem test_bus_data :
    seen (exec (.busData true 0x0A#7) (at_ 0x08#8)) =
      some (0x08#8, some [(false, 0x8A#8)], []) := by decide

/-- The `databyte` table of section 2.1. -/
theorem test_databyte_table :
    databyte .codeB 0x00#8 false = 0x8F#8 ∧ databyte .codeB 0x00#8 true = 0x0F#8 ∧
    databyte .codeB 0x05#8 false = 0x85#8 ∧ databyte .codeB 0x30#8 true = 0x00#8 ∧
    databyte .hex 0x0C#8 false = 0x8C#8 ∧ databyte .hex 0xBC#8 true = 0x0C#8 ∧
    databyte .noDecoding 0x80#8 true = 0x80#8 ∧ databyte .noDecoding 0x7F#8 false = 0xFF#8 := by decide

/-- The nibble split corner values of section 2.5. -/
theorem test_nibble_split :
    (lowNibble 0x0F#8, highNibble 0x0F#8) = (0xF#4, 0x0#4) ∧
    (lowNibble 0xF0#8, highNibble 0xF0#8) = (0x0#4, 0xF#4) ∧
    (lowNibble 0x8F#8, highNibble 0x8F#8) = (0xF#4, 0x8#4) := by decide

/-! ## Steps -/

/-- Row 3 to row 4 of section 2.5: the strobe falls with event 4, and the lines keep the word. -/
theorem test_event_step_lowers_the_strobe :
    (eventStep (.ctrlXact 0x58#8) 3
      { at_ 0x08#8 with
        lines := { mode := some true, portLo := some 0x8#4, portHi := some 0x5#4, wr := true } }).lines =
      { mode := some true, portLo := some 0x8#4, portHi := some 0x5#4, wr := false } := by decide

theorem test_illegal_word_is_refused :
    step { at_ 0x08#8 with host := [.issue (.host 0#32)] } =
      .refused (.illegalCommand .unassignedOp 0#32) := by rfl

theorem test_placed_words_run_first_after_reset :
    isNext (step (State.reset.withFetchWord 32 0x01031A04)) = true ∧
    isNext (step (State.reset.withFetchWord 32 0x04000000)) = true ∧
    isNext (step (State.reset.withFetchWord 16 0x15B)) = true ∧
    isNext (step (State.reset.withFetchWord 16 0x08A)) = true := by decide

theorem test_placed_word_is_what_runs :
    step (State.reset.withFetchWord 32 0x06030000) = exec (.setDigit 3#8) State.reset := by rfl

/-- The observer of P5's variant: a data word first is refused; after a control word it lands. -/
theorem test_shadow :
    shadowRun Shadow.reset [(false, 0x8A#8)] = none ∧
    shadowRun Shadow.reset [(true, 0x58#8), (false, 0x8A#8)] =
      some { cw := some 0x58#8, disp := [(8, 0x8A#8)] } := by decide

theorem test_timing_refuses_a_short_pulse :
    timed [.setMode true, .setNibbles 0#4 0#4, .delay 50, .setStrobe false, .delay 249,
      .setStrobe true] = false ∧
    timed [.setMode true, .setNibbles 0#4 0#4, .delay 49, .setStrobe false] = false ∧
    timed [.setMode true, .setNibbles 0#4 0#4, .delay 50, .setStrobe false, .delay 250,
      .setStrobe true] = true := by decide

/-! ## Witnesses: a concrete state and operands that meet the hypotheses of each statement that has any -/

/-- TURN_OFF at `CS = 0x08` or its bit-7 twin, four events performed: the strobe is low. -/
def strobeLow : State :=
  { State.reset with
    seq := .run .turnOff 4
    tr := (transaction true State.reset.cs).take 4
    lines := { mode := some true, portLo := some (low State.reset.cs),
               portHi := some (high State.reset.cs), wr := false } }

theorem reset_chipState_legal : ChipStateLegal State.reset.cs := by
  simp only [ChipStateLegal, State.reset]
  generalize Config.dcReset = b
  revert b
  decide

/-- The state with the strobe low is one of a safe run. -/
theorem strobeLow_safe : SafeState strobeLow :=
  ⟨reset_chipState_legal, by show 4 < 6; decide, ⟨[], rfl⟩, rfl⟩

theorem witness_EncodeOfDecodeIsTheWord :
    decode (.host 0x06FF0000#32) = .ok (.setDigit 0xFF#8) ∧
    decode (.bus 0x1FF#9) = .ok (.busCtrl true true true true true 7#3) := ⟨rfl, rfl⟩

theorem witness_CommandWordDecodesIffItSelectsOneRow :
    decode (.host 0x01FFFF07#32) = .ok (.updateDigit 0xFF#8 .unrecognised 0xFF#8 true) ∧
    selectsRow 0x01FFFF07#32 (0x01000000#32, 0xFF0000F8#32) = true := ⟨rfl, by decide⟩

theorem witness_StepAtIdleRunsThePresentedWord :
    ∃ s : State, s.seq = .idle ∧ s.host = .issue (.host 0x02000000#32) :: [.pass] ∧
      decode (.host 0x02000000#32) = .ok .turnOn :=
  ⟨{ at_ 0x08#8 with host := [.issue (.host 0x02000000#32), .pass] }, rfl, rfl, rfl⟩

theorem witness_PlacedTableWordRunsNext :
    decodeTableWord 32 0x0106FF05 = some (.updateDigit 6#8 .hex 0xFF#8 true) ∧
    decodeTableWord 16 0x1FF = some (.busCtrl true true true true true 7#3) := by decide

theorem witness_IllegalWordIsRefusedByName :
    ∃ s s' : State, s.seq = .idle ∧ s.host = .issue (.host 0x09000000#32) :: [] ∧
      s'.seq = .idle ∧ s'.host = .start (.host 0x09000000#32) :: [] ∧
      decode (.host 0x09000000#32) = .error .unassignedOp :=
  ⟨{ at_ 0x08#8 with host := [.issue (.host 0x09000000#32)] },
   { at_ 0x08#8 with host := [.start (.host 0x09000000#32)] }, rfl, rfl, rfl, rfl, rfl⟩

theorem witness_EveryOperationIsTotalAndOnlyIllegalWordsRefuse :
    step { at_ 0x08#8 with host := [.start (.host 0x02000001#32)] } =
      .refused (.illegalCommand .unusedField 0x02000001#32) ∧
    Instr.turnOn ≠ .decodeType := ⟨rfl, by decide⟩

/-- A word that waits at the last event, a pass at a transaction's first event, nothing presented. -/
theorem witness_BusySequencerPerformsOneEventAndHoldsTheHost :
    (∃ s : State, s.seq = .run (.updateDigit 7#8 .codeB 0#8 true) 17 ∧
      17 < eventCount (.updateDigit 7#8 .codeB 0#8 true) ∧ waitsForReady s.host = true ∧
      [.issue (.host 0x02000000#32)] = s.host) ∧
    (∃ s : State, s.seq = .run .turnOn 0 ∧ 0 < eventCount .turnOn ∧ s.host = .pass :: [.reset]) ∧
    (∃ s : State, s.seq = .run .turnOn 5 ∧ 5 < eventCount .turnOn ∧ waitsForReady s.host = true ∧
      [] = s.host) :=
  ⟨⟨{ at_ 0x1F#8 with
      seq := .run (.updateDigit 7#8 .codeB 0#8 true) 17
      host := [.issue (.host 0x02000000#32)] }, rfl, by decide, rfl, rfl⟩,
   ⟨{ at_ 0x08#8 with seq := .run .turnOn 0, host := [.pass, .reset] }, rfl, by decide, rfl⟩,
   ⟨{ at_ 0x18#8 with seq := .run .turnOn 5 }, rfl, by decide, rfl, rfl⟩⟩

theorem witness_IdleSequencerWithNothingPresentedStays :
    (at_ 0x08#8).seq = .idle ∧ (at_ 0x08#8).host = [] ∧
    ({ at_ 0x08#8 with host := [.pass, .reset] } : State).host = .pass :: [.reset] := ⟨rfl, rfl, rfl⟩

theorem witness_AcceptanceStartsAtEventZero :
    ∃ s s' : State, s.seq = .idle ∧ s.host = .start (.host 0x03000000#32) :: [] ∧
      decode (.host 0x03000000#32) = .ok .turnOff ∧ Instr.turnOff ≠ .decodeType ∧
      s'.seq = .idle ∧ s'.host = .start (.host 0x04000000#32) :: [] ∧
      decode (.host 0x04000000#32) = .ok .decodeType :=
  ⟨{ at_ 0x08#8 with host := [.start (.host 0x03000000#32)] },
   { at_ 0x08#8 with host := [.start (.host 0x04000000#32)] }, rfl, rfl, rfl, by decide, rfl, rfl, rfl⟩

/-- The first event, the first of the second transaction, and one in between. -/
theorem witness_UpdateDigitMutatesBeforeEachTransaction :
    ∀ i ∈ [0, 5, 6, 17], ∃ s t : State, s.seq = .run (.updateDigit 5#8 .hex 1#8 true) i ∧ i < 18 ∧
      noReset s.host = true ∧ step s = .next t := by
  intro i hi
  refine ⟨{ at_ 0x18#8 with seq := .run (.updateDigit 5#8 .hex 1#8 true) i }, _, rfl, ?_, rfl, rfl⟩
  revert i
  decide

theorem witness_EventLevelRunEqualsTheWholeCommand :
    (at_ 0x18#8).seq = .idle ∧ waitsForReady [.start (.host 0x02000000#32), .reset] = true ∧
    waitsForReady [] = true := ⟨rfl, rfl, rfl⟩

/-- The last event of a command, the first, and one inside the second transaction of three. -/
theorem witness_RunningCommandCompletes :
    (∃ s : State, s.seq = .run (.dataXact 0x8A#8) 5 ∧ 5 < eventCount (.dataXact 0x8A#8) ∧
      waitsForReady s.host = true) ∧
    ∀ i ∈ [0, 9], ∃ s : State, s.seq = .run (.updateDigit 3#8 .hex 0x1A#8 false) i ∧
      i < eventCount (.updateDigit 3#8 .hex 0x1A#8 false) ∧ waitsForReady s.host = true := by
  refine ⟨⟨{ at_ 0x08#8 with seq := .run (.dataXact 0x8A#8) 5 }, rfl, by decide, rfl⟩, ?_⟩
  intro i hi
  refine ⟨{ at_ 0x18#8 with seq := .run (.updateDigit 3#8 .hex 0x1A#8 false) i }, rfl, ?_, rfl⟩
  revert i
  decide

/-- R80's worked example, left at event 9: the rest of the digit word 0x5B, then the data word 0x8A. -/
theorem test_eventsLeft_inside_second_transaction :
    eventsLeft (.updateDigit 3#8 .hex 0x1A#8 false) 9 0x5B#8 =
      [.setStrobe false, .delay Config.tStrobe, .setStrobe true] ++ transaction false 0x8A#8 ∧
    chipStateAtEnd (.updateDigit 3#8 .hex 0x1A#8 false) 0 0x18#8 = 0x5B#8 := ⟨rfl, rfl⟩

theorem witness_UpdateDigitSendsDecodingDigitAndData :
    0x01031A04#32 &&& 0xFF0000F8#32 = 0x01000000#32 ∧ 0x58#8 = setdec (at_ 0x18#8).cs .hex ∧
    0x5B#8 = (0x58#8 &&& 0xF8#8) ||| (3#8 &&& 0x07#8) ∧
    0x8A#8 = databyte (decodeModeOf 0x5B#8) 0x1A#8 false ∧ (at_ 0x18#8).cs = 0x18#8 := by decide

theorem witness_TurnOnSetsOperatingAndPushes :
    (at_ 0x08#8).cs = 0x08#8 ∧ csSd 0x18#8 = true := by decide

theorem witness_TurnOffClearsOperatingAndPushes :
    (at_ 0x5B#8).cs = 0x5B#8 ∧ csSd 0x08#8 = false := by decide

theorem witness_DecodeTypeReturnsTheModeAndWritesNothing :
    (at_ 0x48#8).cs = 0x48#8 ∧
    ∃ t u, exec (.setDecoding .unrecognised) (at_ 0x18#8) = .next t ∧ exec .decodeType t = .next u :=
  ⟨rfl, _, _, rfl, rfl⟩

theorem witness_SetDecodingReplacesTheModeBitsAndPushes :
    0x05000006#32 &&& 0xFFFFFFF9#32 = 0x05000000#32 ∧
    0x3B#8 = ((at_ 0x5B#8).cs &&& 0x9F#8) ||| modeBits .unrecognised ∧ (at_ 0x18#8).cs = 0x18#8 ∧
    ∃ t u, exec (.setDecoding .hex) (at_ 0x18#8) = .next t ∧ exec (.setDecoding .hex) t = .next u :=
  ⟨rfl, rfl, rfl, _, _, rfl, rfl⟩

theorem witness_SetDigitReplacesTheLowThreeBitsAndPushes :
    0x06FF0000#32 &&& 0xFF00FFFF#32 = 0x06000000#32 ∧
    0x1F#8 = ((at_ 0x18#8).cs &&& 0xF8#8) ||| (0xFF#8 &&& 0x07#8) ∧ (at_ 0x58#8).cs = 0x58#8 ∧
    ∃ t u, exec (.setDigit 0xFF#8) (at_ 0x18#8) = .next t ∧ exec (.setDigit 0xFF#8) t = .next u :=
  ⟨rfl, rfl, rfl, _, _, rfl, rfl⟩

theorem witness_CtrlXactSendsItsByteAsControl :
    0x07580000#32 &&& 0xFF00FFFF#32 = 0x07000000#32 := by decide

theorem witness_DataXactSendsItsByteAsData :
    0x088A0000#32 &&& 0xFF00FFFF#32 = 0x08000000#32 := by decide

theorem witness_BusWordRunsAsTheTransactionThatCarriesIt :
    decode (.bus (BitVec.ofBool true ++ 0x5B#8)) = .ok (.busCtrl false true false true true 3#3) ∧
    decode (.bus (BitVec.ofBool false ++ 0x8A#8)) = .ok (.busData true 0x0A#7) := ⟨rfl, rfl⟩

/-- One for each of the three shapes of the hypothesis. -/
theorem witness_SettersChangeOnlyTheirField :
    (∃ t, exec .turnOn (at_ 0x08#8) = .next t) ∧ (∃ t, exec .turnOff (at_ 0x18#8) = .next t) ∧
    (∃ t, exec (.setDecoding .codeB) (at_ 0x5B#8) = .next t) ∧
    (∃ t, exec (.setDigit 255#8) (at_ 0x18#8) = .next t) :=
  ⟨⟨_, rfl⟩, ⟨_, rfl⟩, ⟨_, rfl⟩, ⟨_, rfl⟩⟩

theorem witness_UpdateDigitChangesOnlyModeAndDigit :
    ∃ t, exec (.updateDigit 13#8 .unrecognised 0xAB#8 true) (at_ 0x08#8) = .next t := ⟨_, rfl⟩

theorem witness_QueryAndRawTransactionsKeepChipState :
    (∃ t, exec .decodeType (at_ 0x08#8) = .next t) ∧
    ((Instr.ctrlXact 0x58#8).isRaw = true ∧ ∃ t, exec (.ctrlXact 0x58#8) (at_ 0x08#8) = .next t) ∧
    ((Instr.busData true 0#7).isRaw = true ∧ ∃ t, exec (.busData true 0#7) (at_ 0x08#8) = .next t) :=
  ⟨⟨_, rfl⟩, ⟨rfl, _, rfl⟩, ⟨rfl, _, rfl⟩⟩

theorem witness_DecodeModeDependsOnBitsSixAndFive :
    (0x5F#8).getLsbD 6 = (0xC0#8).getLsbD 6 ∧ (0x5F#8).getLsbD 5 = (0xC0#8).getLsbD 5 ∧
    (∃ t, exec .decodeType (at_ 0x5F#8) = .next t) ∧
    ∃ t, exec (.updateDigit 0#8 .codeB 0#8 false) (at_ 0x5F#8) = .next t :=
  ⟨rfl, rfl, ⟨_, rfl⟩, ⟨_, rfl⟩⟩

theorem witness_DataByteFollowsTheEffectiveMode :
    ∃ t, exec (.updateDigit 2#8 .codeB 0x10#8 true) (at_ 0x18#8) = .next t := ⟨_, rfl⟩

theorem witness_ChipStateIsItsFieldsAndIsTheControlWord :
    (∃ t, exec .turnOff (at_ 0x08#8) = .next t) ∧ ∃ t, exec (.setDigit 8#8) (at_ 0x18#8) = .next t :=
  ⟨⟨_, rfl⟩, ⟨_, rfl⟩⟩

/-- `ctrlXact` and `turnOn` are neither of the two excluded operations. -/
theorem witness_DecodeModeStaysUntilTheNextSetDecoding :
    (∀ m, Instr.turnOn ≠ .setDecoding m) ∧ (∀ a m v p, Instr.turnOn ≠ .updateDigit a m v p) ∧
    (∃ t, exec .turnOn (at_ 0x48#8) = .next t) ∧
    (∃ t, exec (.setDecoding .codeB) (at_ 0x5B#8) = .next t) ∧
    (∃ t, exec (.setDecoding .noDecoding) (at_ 0x5B#8) = .next t) ∧
    ∃ t, exec (.setDecoding .hex) (at_ 0x18#8) = .next t :=
  ⟨nofun, nofun, ⟨_, rfl⟩, ⟨_, rfl⟩, ⟨_, rfl⟩, ⟨_, rfl⟩⟩

theorem witness_PowerPairLaws :
    csSd (at_ 0x4B#8).cs = false ∧
    (∃ t u, exec .turnOn (at_ 0x4B#8) = .next t ∧ exec .turnOff t = .next u) ∧
    (∃ t u, exec .turnOn (at_ 0x4B#8) = .next t ∧ exec .turnOff (at_ 0x4B#8) = .next u) ∧
    (∃ t u, exec .turnOff (at_ 0x4B#8) = .next t ∧ exec .turnOff t = .next u) :=
  ⟨rfl, ⟨_, _, rfl, rfl⟩, ⟨_, _, rfl, rfl⟩, ⟨_, _, rfl, rfl⟩⟩

theorem witness_SettersOfDifferentFieldsCommuteOnChipState :
    ∀ p ∈ [(Instr.setDecoding .hex, Instr.setDigit 3#8), (.setDecoding .hex, .turnOn),
        (.setDigit 3#8, .turnOff)],
      ∃ s1 s2 t1 t2, exec p.1 (at_ 0x18#8) = .next s1 ∧ exec p.2 s1 = .next s2 ∧
        exec p.2 (at_ 0x18#8) = .next t1 ∧ exec p.1 t1 = .next t2 := by
  intro p hp
  simp only [List.mem_cons, List.not_mem_nil, or_false] at hp
  rcases hp with rfl | rfl | rfl <;> exact ⟨_, _, _, _, rfl, rfl, rfl, rfl⟩

theorem witness_QueryIsStableUntilTheModeIsSet :
    ∃ s1 s2 s3, exec .decodeType (at_ 0x48#8) = .next s1 ∧ exec .turnOn s1 = .next s2 ∧
      exec .decodeType s2 = .next s3 ∧ (∀ m, Instr.turnOn ≠ .setDecoding m) ∧
      (∀ a m v p, Instr.turnOn ≠ .updateDigit a m v p) ∧ Instr.turnOn ≠ .decodeType :=
  ⟨_, _, _, rfl, rfl, rfl, nofun, nofun, nofun⟩

theorem witness_EachOperationAddsItsTransactions :
    txView (at_ 0x18#8).tr = some [] ∧
    (∃ t, exec (.updateDigit 0#8 .codeB 0#8 false) (at_ 0x18#8) = .next t) ∧
    ∃ t, exec .decodeType (at_ 0x18#8) = .next t := ⟨rfl, ⟨_, rfl⟩, ⟨_, rfl⟩⟩

theorem witness_SettersPushTheWholeChipStateOnce :
    txView (at_ 0x18#8).tr = some [] ∧ ∃ t, exec .turnOn (at_ 0x18#8) = .next t := ⟨rfl, _, rfl⟩

theorem witness_PointAndBlankHazards :
    (0xAB#8).getLsbD 7 = true ∧ (0x10#8 ≠ 0#8 ∧ low 0x10#8 = 0#4) ∧
    (∃ t, exec (.updateDigit 0#8 .noDecoding 0xAB#8 true) (at_ 0x18#8) = .next t) ∧
    (∃ t, exec (.updateDigit 0#8 .codeB 0#8 true) (at_ 0x18#8) = .next t) ∧
    (∃ t, exec (.updateDigit 0#8 .codeB 0x10#8 true) (at_ 0x18#8) = .next t) ∧
    ∃ t, exec (.updateDigit 0#8 .hex 0#8 true) (at_ 0x18#8) = .next t :=
  ⟨by decide, by decide, ⟨_, rfl⟩, ⟨_, rfl⟩, ⟨_, rfl⟩, ⟨_, rfl⟩⟩

theorem witness_AnyCommandRunsStraightAfterReset :
    (Instr.dataXact 0x8A#8).isCommand = true := by decide

theorem witness_ResetAbandonsWhateverRuns :
    ∃ s : State, s.host = .reset :: [.pass] ∧ s.seq ≠ .idle ∧ s.lines.wr = false :=
  ⟨{ strobeLow with host := [.reset, .pass] }, rfl, nofun, rfl⟩

theorem witness_EveryStepKeepsTheSafeRun : SafeState strobeLow ∧ ∃ t, step strobeLow = .next t :=
  ⟨strobeLow_safe, _, rfl⟩

theorem witness_NoStepWritesBankOrDataComing :
    noReset strobeLow.host = true ∧ ∃ t, step strobeLow = .next t := ⟨rfl, _, rfl⟩

theorem witness_StrobeIsLowOnlyInsideATransaction :
    SafeState strobeLow ∧ strobeLow.lines.wr = false ∧
    SafeState State.reset ∧ State.reset.seq = .idle :=
  ⟨strobeLow_safe, rfl, ⟨reset_chipState_legal, trivial, ⟨[], rfl⟩, rfl⟩, rfl⟩

theorem witness_LinesAreStableWhileTheStrobeIsLow :
    SafeState strobeLow ∧ strobeLow.lines.wr = false ∧ noReset strobeLow.host = true ∧
      ∃ t, step strobeLow = .next t := ⟨strobeLow_safe, rfl, rfl, _, rfl⟩

theorem witness_EveryTraceKeepsTheTimingBounds : SafeState strobeLow ∧ strobeLow.tr.length = 4 :=
  ⟨strobeLow_safe, rfl⟩

theorem witness_IdleTraceIsWholeTransactions :
    SafeState (afterTransaction true State.reset.cs State.reset) ∧
      (afterTransaction true State.reset.cs State.reset).seq = .idle :=
  ⟨⟨reset_chipState_legal, trivial, ⟨[(true, State.reset.cs)], rfl⟩, rfl⟩, rfl⟩

/-- A step that is no reset, and one that is. -/
theorem witness_TraceIsAppendOnly :
    (∃ t, step strobeLow = .next t) ∧ noReset strobeLow.host = true ∧ strobeLow.seq ≠ .idle ∧
    (∃ t, step { strobeLow with host := [.reset] } = .next t) ∧ noReset [HostAct.reset] = false :=
  ⟨⟨_, rfl⟩, rfl, nofun, ⟨_, rfl⟩, rfl⟩

theorem witness_PublicCommandsKeepTheChipTold :
    ∃ s t : State, s.seq = .idle ∧ t.seq = .idle ∧ step s = .next t ∧
      s.host = .issue (.host 0x02000000#32) :: [] ∧
      (∀ c rest i, s.host = .issue c :: rest → decode c = .ok i → i.isRaw = false) ∧
      ToldChipState s := by
  refine ⟨{ at_ 0x08#8 with host := [.issue (.host 0x02000000#32)] }, _, rfl, rfl, rfl, rfl, ?_,
    [], rfl, .inl rfl⟩
  intro c rest i hc hd
  cases hc
  cases hd
  rfl

theorem witness_RawControlWordDesynchronisesUntilTheNextSetter :
    txView (at_ 0x08#8).tr = some [] ∧ 0x58#8 ≠ (at_ 0x08#8).cs ∧
    ∃ t u, exec (.ctrlXact 0x58#8) (at_ 0x08#8) = .next t ∧ exec (.setDigit 2#8) t = .next u :=
  ⟨rfl, by decide, _, _, rfl, rfl⟩

theorem witness_ShadowShowsTheUpdatedDigit :
    shadowOf (at_ 0x08#8).tr = some Shadow.reset ∧
    ∃ t, exec (.updateDigit 13#8 .unrecognised 0xAB#8 true) (at_ 0x08#8) = .next t := ⟨rfl, _, rfl⟩

theorem witness_ShadowMemoryStaysCanonical :
    Memory.wf [(8, 0x8A#8), (15, 0x01#8)] = true ∧
    shadowRun { cw := some 0x1F#8, disp := [(8, 0x8A#8), (15, 0x01#8)] } [(false, 0x02#8)] =
      some { cw := some 0x1F#8, disp := [(8, 0x8A#8), (15, 0x02#8)] } := by decide

end Sys2Proof.Tests
end

section
/-! PROOFS. The statements about `CS` and its decode mode (10_state.md R27, R28), with the lemmas they rest
on: an equation per command that reads or writes `CS`, and `CS` put together from its fields. -/

namespace Sys2Proof.Machine

open Sys2Proof.Safety

/-! ## What a command does, in the named operations -/

theorem exec_turnOn (s : State) : exec .turnOn s = .next (pushChipState (setOperating s.cs) s) := rfl

theorem exec_turnOff (s : State) : exec .turnOff s = .next (pushChipState (setShutdown s.cs) s) := rfl

theorem exec_setDecoding (m : ModeOperand) (s : State) :
    exec (.setDecoding m) s = .next (pushChipState (setdec s.cs m) s) := rfl

theorem exec_setDigit (a : Byte) (s : State) :
    exec (.setDigit a) s = .next (pushChipState (setdigit s.cs a) s) := rfl

theorem exec_decodeType (s : State) : exec .decodeType s = .next (deliver s.rspCode s) := rfl

/-- Steps (a) and (b) of UPDATE_DIGIT leave `setdigit (setdec s.cs m) a` in `CS`; the data byte of step (c)
is computed under the mode of that byte (R80 to R82). -/
theorem exec_updateDigit (a : Byte) (m : ModeOperand) (v : Byte) (p : Bool) (s : State) :
    exec (.updateDigit a m v p) s = .next
      (busWrite false (databyte (decodeModeOf (setdigit (setdec s.cs m) a)) v p)
        (pushChipState (setdigit (setdec s.cs m) a) (pushChipState (setdec s.cs m) s))) := rfl

/-- Each of the four setters is an eager push of some byte (R96). -/
theorem exec_setter_eq_pushChipState {i : Instr} (s : State)
    (hi : i = .turnOn ∨ i = .turnOff ∨ (∃ m, i = .setDecoding m) ∨ ∃ a, i = .setDigit a) :
    ∃ c, exec i s = .next (pushChipState c s) := by
  obtain rfl | rfl | ⟨m, rfl⟩ | ⟨a, rfl⟩ := hi
  · exact ⟨_, exec_turnOn s⟩
  · exact ⟨_, exec_turnOff s⟩
  · exact ⟨_, exec_setDecoding m s⟩
  · exact ⟨_, exec_setDigit a s⟩

/-- The eager push sends the `CS` it leaves (R27, R96). -/
theorem pushChipState_tr_eq_transaction (c : Byte) (s : State) :
    (pushChipState c s).tr = s.tr ++ transaction true (pushChipState c s).cs := by
  simp [transaction_eq]

theorem busWrite_lines_eq_linesAfter (m : Level) (b : Byte) (s : State) :
    (busWrite m b s).lines = linesAfter m b := by
  simp [linesAfter_eq]

/-! ## The fields of `CS` -/

/-- A one-bit field of `CS` is a shift and the mask 1 (R27). -/
theorem setWidth_ofBool_getLsbD (c : Byte) (k : Nat) :
    (BitVec.ofBool (c.getLsbD k)).setWidth 8 = (c >>> k) &&& 1#8 := by
  simp [BitVec.and_one_eq_setWidth_ofBool_getLsbD]

/-- `DIGIT` is the mask 7 (R27). -/
theorem setWidth_csDigit (c : Byte) : (csDigit c).setWidth 8 = c &&& 0x07#8 := by
  ext k hk
  interval_cases k <;> simp [csDigit]

/-- The concatenation `{DC, HEX, ND, SD, BANK, DIGIT}` bit by bit (R27). -/
theorem getLsbD_packControl (dc hex nd sd bank : Bool) (digit : BitVec 3) {k : Nat}
    (hk : k < 8) :
    (packControl dc hex nd sd bank digit).getLsbD k =
      if k < 3 then digit.getLsbD k else if k = 3 then bank else if k = 4 then sd
      else if k = 5 then nd else if k = 6 then hex else dc := by
  simp only [packControl, BitVec.getLsbD_append, BitVec.getLsbD_ofBool, Nat.sub_sub]
  interval_cases k <;> simp

/-- The concatenation of R27 as an or of shifted fields. -/
theorem packControl_eq_or (dc hex nd sd bank : Bool) (digit : BitVec 3) :
    packControl dc hex nd sd bank digit =
      ((BitVec.ofBool dc).setWidth 8 <<< 7) ||| ((BitVec.ofBool hex).setWidth 8 <<< 6) |||
        ((BitVec.ofBool nd).setWidth 8 <<< 5) ||| ((BitVec.ofBool sd).setWidth 8 <<< 4) |||
        ((BitVec.ofBool bank).setWidth 8 <<< 3) ||| digit.setWidth 8 := by
  refine BitVec.eq_of_getLsbD_eq fun k hk => ?_
  rw [getLsbD_packControl _ _ _ _ _ _ hk]
  interval_cases k <;> simp

/-- Every byte is put together from its fields (R27). -/
theorem packControl_fields (c : Byte) :
    packControl (csDc c) (csHex c) (csNd c) (csSd c) (csBank c) (csDigit c) = c := by
  refine BitVec.eq_of_getLsbD_eq fun k hk => ?_
  rw [getLsbD_packControl _ _ _ _ _ _ hk]
  interval_cases k <;> simp [csDc, csHex, csNd, csSd, csBank, csDigit]

/-- The decode mode by the fields `HEX` and `ND`, for all four patterns (R28). -/
theorem decodeModeOf_iff (c : Byte) :
    (decodeModeOf c = .codeB ↔ csHex c = false ∧ csNd c = false) ∧
    (decodeModeOf c = .hex ↔ csHex c = true ∧ csNd c = false) ∧
    (decodeModeOf c = .noDecoding ↔ csNd c = true) := by
  rw [decodeModeOf_eq, csHex, csNd]
  cases c.getLsbD 5 <;> cases c.getLsbD 6 <;> decide

end Sys2Proof.Machine

namespace Sys2Proof.Proofs

open Sys2Proof.Machine Sys2Proof.Safety

/-- Settles O29: the mode is read off bits 6 and 5 (`decodeModeOf_eq`), and both of its readers run on the
`CS` they leave. -/
theorem decodeModeDependsOnBitsSixAndFive : Obligations.DecodeModeDependsOnBitsSixAndFive := by
  refine ⟨fun _ => rfl, ?sameBits, decodeModeOf_iff, ?query, ?dataByte⟩
  case sameBits =>
    intro c d h6 h5
    rw [decodeModeOf_eq, decodeModeOf_eq, h5, h6]
  case query =>
    intro s t ht
    rw [exec_decodeType] at ht
    cases ht
    exact deliver_responses ..
  case dataByte =>
    intro a m v p s t ht
    rw [exec_updateDigit] at ht
    cases ht
    exact busWrite_lines_eq_linesAfter ..

/-- Settles O32: the or of shifted fields is the concatenation, each field is a shift and a mask, and a
setter is an eager push. -/
theorem chipStateIsItsFieldsAndIsTheControlWord :
    Obligations.ChipStateIsItsFieldsAndIsTheControlWord := by
  refine ⟨fun c => ?fields, ?controlWord⟩
  case fields =>
    have hpack := packControl_fields c
    exact ⟨hpack.symm, hpack.symm.trans (packControl_eq_or ..), setWidth_csDigit c,
      setWidth_ofBool_getLsbD c 3, setWidth_ofBool_getLsbD c 4, setWidth_ofBool_getLsbD c 5,
      setWidth_ofBool_getLsbD c 6, setWidth_ofBool_getLsbD c 7⟩
  case controlWord =>
    intro i s t hi ht
    obtain ⟨c, hc⟩ := exec_setter_eq_pushChipState s hi
    rw [hc] at ht
    cases ht
    exact pushChipState_tr_eq_transaction c s

end Sys2Proof.Proofs
end

section
/-! PROOFS. The bus word's decoder: its bit 8 selects the format, the byte below it gives the fields, and
the encoder puts them together again (30_encoding.md R62). -/

namespace Sys2Proof

open Sys2Proof.Machine

/-! ## A bus word is a mode bit and a byte -/

/-- A 9-bit word is one of the pairs `(m, b)` of the transaction list (R62). -/
theorem busWord_eq_append (w : BitVec 9) : ∃ b : Byte, w = 1#1 ++ b ∨ w = 0#1 ++ b := by
  have hw : w = w.extractLsb' 8 1 ++ w.extractLsb' 0 8 :=
    (BitVec.extractLsb'_append_extractLsb' (w := 1) (len := 8)).symm
  obtain hm | hm := BitVec.eq_zero_or_eq_one (w.extractLsb' 8 1)
  · exact ⟨w.extractLsb' 0 8, .inr (hm ▸ hw)⟩
  · exact ⟨w.extractLsb' 0 8, .inl (hm ▸ hw)⟩

theorem decode_bus_control (b : Byte) : decode (.bus (1#1 ++ b)) =
    .ok (.busCtrl (csDc b) (csHex b) (csNd b) (csSd b) (csBank b) (csDigit b)) := by
  have hdigit : BitVec.extractLsb' 0 3 (1#1 ++ b) = csDigit b :=
    BitVec.extractLsb'_append_eq_of_add_le (by decide)
  simp only [decode, decodeBus, BitVec.getLsbD_append, hdigit]
  rfl

theorem decode_bus_data (b : Byte) :
    decode (.bus (0#1 ++ b)) = .ok (.busData (b.getLsbD 7) (b.extractLsb' 0 7)) := by
  have hpayload : BitVec.extractLsb' 0 7 (0#1 ++ b) = b.extractLsb' 0 7 :=
    BitVec.extractLsb'_append_eq_of_add_le (by decide)
  simp only [decode, decodeBus, BitVec.getLsbD_append, hpayload]
  rfl

/-! ## The byte of a bus word put together from its fields -/

/-- Every byte is bit 7 and the payload below it (R61). -/
theorem packData_fields (b : Byte) : packData (b.getLsbD 7) (b.extractLsb' 0 7) = b := by
  refine BitVec.eq_of_getLsbD_eq fun k hk => ?_
  simp only [packData, BitVec.getLsbD_append]
  interval_cases k <;> simp

theorem encode_busCtrl_fields (b : Byte) :
    encode (.busCtrl (csDc b) (csHex b) (csNd b) (csSd b) (csBank b) (csDigit b)) =
      .bus (1#1 ++ b) := by
  rw [encode, packControl_fields]

theorem encode_busData_fields (b : Byte) :
    encode (.busData (b.getLsbD 7) (b.extractLsb' 0 7)) = .bus (0#1 ++ b) := by
  rw [encode, packData_fields]

end Sys2Proof

namespace Sys2Proof.Proofs

open Sys2Proof.Machine

/-- Settles O6: a word is a mode bit and a byte (`busWord_eq_append`), and each format decodes to the fields
that its encoder puts together again. -/
theorem everyBusWordDecodesByItsModeBit : Obligations.EveryBusWordDecodesByItsModeBit := by
  refine ⟨fun w => ?_, decode_bus_control, decode_bus_data⟩
  obtain ⟨b, rfl | rfl⟩ := busWord_eq_append w
  · exact ⟨_, decode_bus_control b, rfl, encode_busCtrl_fields b⟩
  · exact ⟨_, decode_bus_data b, rfl, encode_busData_fields b⟩

end Sys2Proof.Proofs
end

section
/-! PROOFS. The expansions of the table of operations (30_encoding.md R75), as equalities of whole states. -/

namespace Sys2Proof.Machine

theorem exec_ctrlXact (b : Byte) (s : State) : exec (.ctrlXact b) s = .next (busWrite true b s) := rfl

theorem exec_dataXact (b : Byte) (s : State) : exec (.dataXact b) s = .next (busWrite false b s) := rfl

/-- The eager push of R96 is CTRL_XACT of the new `CS` on the state that holds it. -/
theorem next_pushChipState_eq_exec_ctrlXact (c : Byte) (s : State) :
    .next (pushChipState c s) = exec (.ctrlXact c) { s with cs := c } := rfl

end Sys2Proof.Machine

namespace Sys2Proof.Proofs

open Sys2Proof.Machine

/-- Settles O36: every setter is an eager push, which is CTRL_XACT of the new `CS`, and UPDATE_DIGIT is two
pushes and a data transaction. -/
theorem operationsEqualTheirExpansions : Obligations.OperationsEqualTheirExpansions := by
  refine ⟨?updateDigit, ?setDecoding, ?setDigit, ?turnOn, ?turnOff, exec_ctrlXact, exec_dataXact⟩
  case updateDigit =>
    intro a m v p s
    refine ⟨_, _, exec_setDecoding m s, exec_setDigit a _, ?_⟩
    rw [exec_updateDigit, exec_dataXact, pushChipState_cs, pushChipState_cs]
  case setDecoding =>
    intro m s
    rw [exec_setDecoding, next_pushChipState_eq_exec_ctrlXact]
  case setDigit =>
    intro a s
    rw [exec_setDigit, next_pushChipState_eq_exec_ctrlXact, setdigit]
  case turnOn =>
    intro s
    rw [exec_turnOn, next_pushChipState_eq_exec_ctrlXact, setOperating]
  case turnOff =>
    intro s
    rw [exec_turnOff, next_pushChipState_eq_exec_ctrlXact, setShutdown]

end Sys2Proof.Proofs
end

section
/-! PROOFS. UPDATE_DIGIT (40_update_digit.md): its row of command words, its result as a whole state, and the
data byte under each decode mode. -/

namespace Sys2Proof

/-! ## The command words that decode to UPDATE_DIGIT -/

/-- The row of UPDATE_DIGIT constrains `OP` and bits 7:3 only (R71). -/
theorem and_updateDigitMask_eq_iff (w : BitVec 32) :
    w &&& 0xFF0000F8#32 = 0x01000000#32 ↔ fieldOp w = 0x01#8 ∧ fieldZ w = 0#5 := by
  have hop : fieldOp (w &&& 0xFF0000F8#32) = fieldOp w := (fieldOp_and ..).trans BitVec.and_allOnes
  have hz : fieldZ (w &&& 0xFF0000F8#32) = fieldZ w := (fieldZ_and ..).trans BitVec.and_allOnes
  constructor
  · intro h
    rw [h] at hop hz
    exact ⟨hop.symm, hz.symm⟩
  · rintro ⟨h1, h0⟩
    exact word_eq_of_fields (hop.trans h1) ((fieldA_and ..).trans BitVec.and_zero)
      ((fieldV_and ..).trans BitVec.and_zero) (hz.trans h0) ((fieldM_and ..).trans BitVec.and_zero)
      ((fieldP_and ..).trans (Bool.and_false _))

/-- A word decodes to UPDATE_DIGIT exactly when it has the operation's code and zero in bits 7:3; no field is
unused, so the operands are whatever the fields hold (R71, R72). -/
theorem decode_host_eq_updateDigit_iff {w : BitVec 32} {a v : Byte} {m : ModeOperand} {p : Bool} :
    decode (.host w) = .ok (.updateDigit a m v p) ↔
      (fieldOp w = 0x01#8 ∧ fieldZ w = 0#5) ∧
        fieldA w = a ∧ modeOfCode (fieldM w) = m ∧ fieldV w = v ∧ fieldP w = p := by
  simp only [decode, decodeCommand]
  by_cases hop : fieldOp w = 0x01#8
  · simp [hop, whenUnusedZero_eq_ok]
  · simp only [hop, if_false, false_and, iff_false]
    split_ifs <;> simp [whenUnusedZero_eq_ok]

end Sys2Proof

namespace Sys2Proof.Machine

open Sys2Proof.Safety

/-! ## The result of UPDATE_DIGIT -/

theorem busWrite_eq_afterTransaction (m : Level) (b : Byte) (s : State) :
    busWrite m b s = afterTransaction m b s := by
  rw [busWrite, emitAll_eq, foldl_busEvents, afterTransaction, transaction_eq, linesAfter_eq]

theorem pushChipState_eq_afterTransaction (c : Byte) (s : State) :
    pushChipState c s = afterTransaction true c { s with cs := c } :=
  busWrite_eq_afterTransaction true c { s with cs := c }

/-- UPDATE_DIGIT appends its three transactions in order and leaves the second one's byte in `CS` and the last
one on the latches (R80). -/
theorem exec_updateDigit_eq_transactions (a : Byte) (m : ModeOperand) (v : Byte) (p : Bool) (s : State)
    (c1 c2 b : Byte) (hc1 : c1 = setdec s.cs m) (hc2 : c2 = setdigit c1 a)
    (hb : b = databyte (decodeModeOf c2) v p) :
    exec (.updateDigit a m v p) s = .next
      { s with
        cs := c2
        lines := linesAfter false b
        tr := s.tr ++ transactions [(true, c1), (true, c2), (false, b)] } := by
  subst hb hc2 hc1
  simp [exec_updateDigit, busWrite_eq_afterTransaction, pushChipState_eq_afterTransaction,
    afterTransaction, transactions]

/-- Steps (a) and (b) keep bits 3, 4 and 7 of `CS` (R80). -/
theorem setdigit_setdec_keeps_bank_sd_dc (c a : Byte) (m : ModeOperand) :
    csBank (setdigit (setdec c m) a) = csBank c ∧ csSd (setdigit (setdec c m) a) = csSd c ∧
      csDc (setdigit (setdec c m) a) = csDc c := by
  simp only [csBank, csSd, csDc, getLsbD_setdigit, getLsbD_setdec]
  exact ⟨rfl, rfl, rfl⟩

/-! ## The data byte -/

theorem databyte_codeB (v : Byte) (p : Bool) :
    databyte .codeB v p =
      (if v = 0#8 then 0x0F#8 else v &&& 0x0F#8) ||| (if p then 0#8 else 0x80#8) := by
  rw [databyte, dpBit_eq]
  split <;> rfl

theorem databyte_hex (v : Byte) (p : Bool) :
    databyte .hex v p = (v &&& 0x0F#8) ||| (if p then 0#8 else 0x80#8) := by
  rw [databyte, dpBit_eq]

theorem databyte_noDecoding (v : Byte) (p : Bool) :
    databyte .noDecoding v p = v ||| (if p then 0#8 else 0x80#8) := by
  rw [databyte, dpBit_eq]

/-- The decimal point is or-ed into bit 7, whatever the payload has there (R83). -/
theorem getLsbD_seven_or_point (x : Byte) (p : Bool) :
    (x ||| (if p then 0#8 else 0x80#8)).getLsbD 7 = (x.getLsbD 7 || !p) := by
  cases p <;> simp

end Sys2Proof.Machine

namespace Sys2Proof.Proofs

open Sys2Proof.Machine Sys2Proof.Safety

/-- Settles O17: the row test and the decoder both say `OP` = 1 and zero in bits 7:3, and the run is
`exec_updateDigit_eq_transactions`; the worked example is that run at `CS` = 0x18. -/
theorem updateDigitSendsDecodingDigitAndData : Obligations.UpdateDigitSendsDecodingDigitAndData := by
  refine ⟨fun w => ?row, fun w hw => ?operands, ?run, rfl, fun s hs => ?worked⟩
  case row =>
    rw [and_updateDigitMask_eq_iff]
    constructor
    · rintro ⟨a, m, v, p, h⟩
      exact (decode_host_eq_updateDigit_iff.mp h).1
    · intro h
      exact ⟨_, _, _, _, decode_host_eq_updateDigit_iff.mpr ⟨h, rfl, rfl, rfl, rfl⟩⟩
  case operands =>
    exact decode_host_eq_updateDigit_iff.mpr
      ⟨(and_updateDigitMask_eq_iff w).mp hw, rfl, rfl, rfl, rfl⟩
  case run =>
    intro a m v p s c1 c2 b hc1 hc2 hb
    have hrun := exec_updateDigit_eq_transactions a m v p s c1 c2 b hc1 hc2 hb
    have hkept := setdigit_setdec_keeps_bank_sd_dc s.cs a m
    rw [← hc1, setdigit, ← hc2] at hkept
    exact ⟨by simpa [transactions] using hrun, hkept⟩
  case worked =>
    exact exec_updateDigit_eq_transactions 3#8 .hex 0x1A#8 false s 0x58#8 0x5B#8 0x8A#8
      (by rw [hs]; rfl) rfl rfl

/-- Settles O30: an equation per decode mode, bit 7 of each, and the third of the transactions
UPDATE_DIGIT appends. -/
theorem dataByteFollowsTheEffectiveMode : Obligations.DataByteFollowsTheEffectiveMode := by
  refine ⟨fun v p => ⟨databyte_codeB v p, databyte_hex v p, databyte_noDecoding v p, ?codeBPoint,
    ?hexPoint, ?noDecodingPoint⟩, rfl, rfl, rfl, rfl, rfl, rfl, ?sent⟩
  case codeBPoint =>
    rw [databyte_codeB, getLsbD_seven_or_point]
    split <;> simp
  case hexPoint =>
    rw [databyte_hex, getLsbD_seven_or_point]
    simp
  case noDecodingPoint =>
    rw [databyte_noDecoding, getLsbD_seven_or_point]
  case sent =>
    intro a m v p s t ht
    rw [exec_updateDigit_eq_transactions a m v p s _ _ _ rfl rfl rfl] at ht
    cases ht
    exact ⟨_, _, rfl⟩

end Sys2Proof.Proofs
end

section
/-! PROOFS. TURN_ON and TURN_OFF (41_power.md): a command word is the encoding of what it decodes to, a
write of `CS[4]` alone, and the push of the result. -/

namespace Sys2Proof

/-- A legal command word has zero in bits 7:3 and in every field its operation does not use, so it is packed
from the fields that the decoder read (R72, R76). -/
theorem encode_eq_host_of_decodeCommand {w : BitVec 32} {i : Instr} (h : decodeCommand w = .ok i) :
    encode i = .host w := by
  unfold decodeCommand at h
  split_ifs at h
  all_goals
    obtain ⟨hz, hunused, rfl⟩ := whenUnusedZero_eq_ok.mp h
    rw [← packCommand_fields w hz]
    simp_all [encode]

/-- The words that decode to an instruction are one word, its encoding. -/
theorem decode_host_eq_ok_iff {w x : BitVec 32} {i : Instr} (henc : encode i = .host x)
    (hdec : decode (.host x) = .ok i) : decode (.host w) = .ok i ↔ w = x := by
  constructor
  · intro h
    have hw : Encoded.host w = .host x := (encode_eq_host_of_decodeCommand h).symm.trans henc
    exact Encoded.host.inj hw
  · rintro rfl
    exact hdec

end Sys2Proof

namespace Sys2Proof.Machine

open Sys2Proof.Safety

theorem exec_turnOn_eq_afterTransaction (s : State) : exec .turnOn s =
    .next (afterTransaction true (s.cs ||| 0x10#8) { s with cs := s.cs ||| 0x10#8 }) := by
  rw [exec_turnOn, pushChipState_eq_afterTransaction, setOperating]

theorem exec_turnOff_eq_afterTransaction (s : State) : exec .turnOff s =
    .next (afterTransaction true (s.cs &&& 0xEF#8) { s with cs := s.cs &&& 0xEF#8 }) := by
  rw [exec_turnOff, pushChipState_eq_afterTransaction, setShutdown]

/-- Writing `v` to bit 4 and nothing else leaves `v` in `SD`, changes nothing where `SD` was `v`, and keeps
every other bit (R90, R91). -/
theorem csSd_write_laws {c d : Byte} {v : Bool}
    (hd : ∀ k, d.getLsbD k = if k = 4 then v else c.getLsbD k) :
    csSd d = v ∧ (csSd c = v → d = c) ∧ ∀ k, k ≠ 4 → d.getLsbD k = c.getLsbD k := by
  have hkept : ∀ k, k ≠ 4 → d.getLsbD k = c.getLsbD k := fun k hk => by rw [hd, if_neg hk]
  refine ⟨hd 4, fun hc => BitVec.eq_of_getLsbD_eq fun k _ => ?_, hkept⟩
  by_cases hk : k = 4
  · subst hk
    exact (hd 4).trans hc.symm
  · exact hkept k hk

end Sys2Proof.Machine

namespace Sys2Proof.Proofs

open Sys2Proof.Machine Sys2Proof.Safety

/-- Settles O18: the word is the encoding, the run is a push, and the byte pushed is `CS` with bit 4 written
to 1 (`getLsbD_setOperating`); the worked example is that run at `CS` = 0x08. -/
theorem turnOnSetsOperatingAndPushes : Obligations.TurnOnSetsOperatingAndPushes := by
  refine ⟨fun _ => decode_host_eq_ok_iff rfl rfl, exec_turnOn_eq_afterTransaction,
    fun c => csSd_write_laws (getLsbD_setOperating c), fun s hs => ?worked⟩
  case worked =>
    rw [exec_turnOn_eq_afterTransaction, hs]
    rfl

/-- Settles O19: the word is the encoding, the run is a push, and the byte pushed is `CS` with bit 4 written
to 0 (`getLsbD_setShutdown`); the worked example is that run at `CS` = 0x5B. -/
theorem turnOffClearsOperatingAndPushes : Obligations.TurnOffClearsOperatingAndPushes := by
  refine ⟨fun _ => decode_host_eq_ok_iff rfl rfl, exec_turnOff_eq_afterTransaction,
    fun c => csSd_write_laws (getLsbD_setShutdown c), fun s hs => ?worked⟩
  case worked =>
    rw [exec_turnOff_eq_afterTransaction, hs]
    rfl

end Sys2Proof.Proofs
end

section
/-! PROOFS. DECODE_TYPE (42_decode_query.md): the response as a function of `CS[6:5]`, and the decode mode of
the bytes that reset and SET_DECODING leave. -/

namespace Sys2Proof.Machine

open Sys2Proof.Safety

/-- The response by bits 5 and 6 of `CS`, in the codes of R66 (R94). -/
theorem rspCode_eq (s : State) :
    s.rspCode = if s.cs.getLsbD 5 then 1#2 else if s.cs.getLsbD 6 then 2#2 else 0#2 := by
  rw [State.rspCode, decodeModeOf_eq]
  cases s.cs.getLsbD 5 <;> cases s.cs.getLsbD 6 <;> rfl

/-- SET_DECODING leaves the mode of its operand, the unrecognised one as NoDecoding (R97, R98). -/
theorem decodeModeOf_setdec (c : Byte) (m : ModeOperand) :
    decodeModeOf (setdec c m) = effectiveMode m := by
  rw [decodeModeOf_eq, getLsbD_setdec, getLsbD_setdec]
  cases m <;> rfl

/-- Reset leaves Code-B, whatever `DC_RESET` is (R36, R94). -/
theorem decodeModeOf_reset : decodeModeOf State.reset.cs = .codeB := by
  unfold State.reset
  cases Config.dcReset <;> rfl

end Sys2Proof.Machine

namespace Sys2Proof.Proofs

open Sys2Proof.Machine Sys2Proof.Safety

/-- Settles O20: the word is the encoding, the run delivers the response and does nothing else, and the
response is read off the `CS` that reset, SET_DECODING 3 or the worked example left. -/
theorem decodeTypeReturnsTheModeAndWritesNothing :
    Obligations.DecodeTypeReturnsTheModeAndWritesNothing := by
  refine ⟨fun _ => decode_host_eq_ok_iff rfl rfl, ?run, congrArg responseCode decodeModeOf_reset,
    ?afterUnrecognised, ?worked⟩
  case run =>
    intro s
    rw [exec_decodeType, deliver, rspCode_eq]
  case afterUnrecognised =>
    intro s t u ht hu
    rw [exec_setDecoding] at ht
    cases ht
    rw [exec_decodeType] at hu
    cases hu
    rw [deliver_responses, pushChipState_responses, State.rspCode, pushChipState_cs,
      decodeModeOf_setdec]
    rfl
  case worked =>
    intro s hs
    have hrsp : s.rspCode = 2#2 := by
      rw [State.rspCode, hs]
      rfl
    rw [exec_decodeType, deliver, hrsp]

end Sys2Proof.Proofs
end

section
/-! PROOFS. SET_DECODING and SET_DIGIT (43_state_setters.md): the command words of a row with one operand, the
byte each setter leaves in `CS`, and a setter performed twice. -/

namespace Sys2Proof

/-! ## The row of the opcode table that a decoded word selects -/

theorem encode_selectsRow (i : Instr) : Laws.EncodeSelectsRow.Statement i := by
  cases i with
  | updateDigit a m v p => exact Laws.EncodeSelectsRow.updateDigit a m v p
  | turnOn => exact Laws.EncodeSelectsRow.turnOn
  | turnOff => exact Laws.EncodeSelectsRow.turnOff
  | decodeType => exact Laws.EncodeSelectsRow.decodeType
  | setDecoding m => exact Laws.EncodeSelectsRow.setDecoding m
  | setDigit a => exact Laws.EncodeSelectsRow.setDigit a
  | ctrlXact a => exact Laws.EncodeSelectsRow.ctrlXact a
  | dataXact a => exact Laws.EncodeSelectsRow.dataXact a
  | busCtrl dc hex nd sd bank digit =>
    exact Laws.EncodeSelectsRow.busCtrl dc hex nd sd bank digit
  | busData dpn payload => exact Laws.EncodeSelectsRow.busData dpn payload

/-- A legal command word is the encoding of its instruction, so it selects its instruction's row (R71, R76). -/
theorem selectsRow_of_decode {w : BitVec 32} {i : Instr} (h : decode (.host w) = .ok i) :
    ∃ row, commandRow i = some row ∧ selectsRow w row = true := by
  have hsel := encode_selectsRow i
  rw [Laws.EncodeSelectsRow.Statement, encode_eq_host_of_decodeCommand h] at hsel
  exact hsel

/-- Where every word of a row decodes to an operation `f` of some operand, the row is exactly the words that
decode to that operation. -/
theorem decodes_iff_selects_row {α : Type} {f : α → Instr} {read : BitVec 32 → α}
    {selected mask : BitVec 32} (hrow : ∀ x, commandRow (f x) = some (selected, mask))
    (hread : ∀ w, w &&& mask = selected → decode (.host w) = .ok (f (read w))) (w : BitVec 32) :
    (∃ x, decode (.host w) = .ok (f x)) ↔ w &&& mask = selected := by
  constructor
  · rintro ⟨x, hx⟩
    obtain ⟨row, hcommand, hsel⟩ := selectsRow_of_decode hx
    obtain rfl : (selected, mask) = row := Option.some.inj ((hrow x).symm.trans hcommand)
    exact beq_iff_eq.mp hsel
  · intro hw
    exact ⟨read w, hread w hw⟩

/-! ## The words of a row with one operand field -/

/-- A word of the row whose one operand is `A` is packed from it (R71). -/
theorem eq_packCommand_of_byteOperandRow {op : Byte} {w : BitVec 32}
    (h : w &&& 0xFF00FFFF#32 = packCommand op 0#8 0#8 0#2 false) :
    w = packCommand op (fieldA w) 0#8 0#2 false := by
  have hop : fieldOp (w &&& 0xFF00FFFF#32) = fieldOp w := (fieldOp_and ..).trans BitVec.and_allOnes
  have hv : fieldV (w &&& 0xFF00FFFF#32) = fieldV w := (fieldV_and ..).trans BitVec.and_allOnes
  have hz : fieldZ (w &&& 0xFF00FFFF#32) = fieldZ w := (fieldZ_and ..).trans BitVec.and_allOnes
  have hm : fieldM (w &&& 0xFF00FFFF#32) = fieldM w := (fieldM_and ..).trans BitVec.and_allOnes
  have hp : fieldP (w &&& 0xFF00FFFF#32) = fieldP w := (fieldP_and ..).trans (Bool.and_true _)
  rw [h] at hop hv hz hm hp
  apply word_eq_of_fields <;> simp [← hop, ← hv, ← hz, ← hm, ← hp]

/-- A word of the row whose one operand is `M` is packed from it (R71). -/
theorem eq_packCommand_of_modeOperandRow {op : Byte} {w : BitVec 32}
    (h : w &&& 0xFFFFFFF9#32 = packCommand op 0#8 0#8 0#2 false) :
    w = packCommand op 0#8 0#8 (fieldM w) false := by
  have hop : fieldOp (w &&& 0xFFFFFFF9#32) = fieldOp w := (fieldOp_and ..).trans BitVec.and_allOnes
  have ha : fieldA (w &&& 0xFFFFFFF9#32) = fieldA w := (fieldA_and ..).trans BitVec.and_allOnes
  have hv : fieldV (w &&& 0xFFFFFFF9#32) = fieldV w := (fieldV_and ..).trans BitVec.and_allOnes
  have hz : fieldZ (w &&& 0xFFFFFFF9#32) = fieldZ w := (fieldZ_and ..).trans BitVec.and_allOnes
  have hp : fieldP (w &&& 0xFFFFFFF9#32) = fieldP w := (fieldP_and ..).trans (Bool.and_true _)
  rw [h] at hop ha hv hz hp
  apply word_eq_of_fields <;> simp [← hop, ← ha, ← hv, ← hz, ← hp]

theorem decode_setDigitRow {w : BitVec 32} (h : w &&& 0xFF00FFFF#32 = 0x06000000#32) :
    decode (.host w) = .ok (.setDigit (fieldA w)) := by
  have hw : w = packCommand 0x06#8 (fieldA w) 0#8 0#2 false := eq_packCommand_of_byteOperandRow h
  rw [hw]
  simp [decode, decodeCommand, whenUnusedZero]

theorem decode_setDecodingRow {w : BitVec 32} (h : w &&& 0xFFFFFFF9#32 = 0x05000000#32) :
    decode (.host w) = .ok (.setDecoding (modeOfCode (fieldM w))) := by
  have hw : w = packCommand 0x05#8 0#8 0#8 (fieldM w) false := eq_packCommand_of_modeOperandRow h
  rw [hw]
  simp [decode, decodeCommand, whenUnusedZero]

end Sys2Proof

namespace Sys2Proof.Machine

open Sys2Proof.Safety

/-! ## The byte a setter leaves in `CS` -/

theorem setdec_eq_or_modeBits (c : Byte) (m : ModeOperand) :
    setdec c m = (c &&& 0x9F#8) ||| modeBits m := by
  cases m with
  | codeB => exact BitVec.or_zero.symm
  | noDecoding | hex | unrecognised => rfl

/-- Bits 6 and 5 are cleared and at most one of them is set again (R97). -/
theorem not_csHex_and_csNd_setdec (c : Byte) (m : ModeOperand) :
    ¬(csHex (setdec c m) = true ∧ csNd (setdec c m) = true) := by
  rw [csHex, csNd, getLsbD_setdec, getLsbD_setdec]
  cases m <;> simp

/-- "the previous mode leaves no trace" (R97). -/
theorem setdec_setdec (c : Byte) (m n : ModeOperand) : setdec (setdec c m) n = setdec c n := by
  refine BitVec.eq_of_getLsbD_eq fun k _ => ?_
  simp only [getLsbD_setdec]
  split_ifs <;> rfl

/-- The digit before leaves no trace (R99). -/
theorem setdigit_setdigit (c a b : Byte) : setdigit (setdigit c a) b = setdigit c b := by
  refine BitVec.eq_of_getLsbD_eq fun k _ => ?_
  simp only [getLsbD_setdigit]
  split_ifs <;> rfl

theorem csDigit_setdigit (c a : Byte) : csDigit (setdigit c a) = csDigit a := by
  refine BitVec.eq_of_getLsbD_eq fun k hk => ?_
  simp [csDigit, getLsbD_setdigit, hk]

theorem csDigit_toNat (c : Byte) : (csDigit c).toNat = c.toNat % 8 := by
  simp [csDigit]

/-! ## The run of a setter -/

theorem exec_setDecoding_eq_afterTransaction (m : ModeOperand) (s : State) : exec (.setDecoding m) s =
    .next (afterTransaction true (setdec s.cs m) { s with cs := setdec s.cs m }) := by
  rw [exec_setDecoding, pushChipState_eq_afterTransaction]

theorem exec_setDigit_eq_afterTransaction (a : Byte) (s : State) : exec (.setDigit a) s =
    .next (afterTransaction true (setdigit s.cs a) { s with cs := setdigit s.cs a }) := by
  rw [exec_setDigit, pushChipState_eq_afterTransaction]

/-- A setter that changes nothing the second time still pushes the second time (R97, R99). -/
theorem setter_twice {i : Instr} {f : Byte → Byte}
    (hrun : ∀ s, exec i s = .next (pushChipState (f s.cs) s)) (hidem : ∀ c, f (f c) = f c)
    {s t u : State} (ht : exec i s = .next t) (hu : exec i t = .next u) :
    u.cs = t.cs ∧ u.tr = s.tr ++ transactions [(true, f s.cs), (true, f s.cs)] := by
  rw [hrun] at ht hu
  cases ht
  cases hu
  simp [hidem, transactions, transaction_eq]

end Sys2Proof.Machine

namespace Sys2Proof.Proofs

open Sys2Proof.Machine Sys2Proof.Safety

/-- Settles O21: the row decodes by its `M`, the byte pushed is `setdec`, whose bits
`getLsbD_setdec` gives, and a second run finds them set already; the worked example is the run at
`CS` = 0x18. -/
theorem setDecodingReplacesTheModeBitsAndPushes :
    Obligations.SetDecodingReplacesTheModeBitsAndPushes := by
  refine ⟨decodes_iff_selects_row (fun _ => rfl) fun _ => decode_setDecodingRow,
    fun _ => decode_setDecodingRow, ?run, rfl, ?worked⟩
  case run =>
    intro m s c hc
    rw [← setdec_eq_or_modeBits] at hc
    subst hc
    refine ⟨exec_setDecoding_eq_afterTransaction m s, fun k h5 h6 => ?_,
      not_csHex_and_csNd_setdec s.cs m, decodeModeOf_setdec s.cs m, fun t u ht hu => ?_⟩
    · rw [getLsbD_setdec, if_neg h5, if_neg h6]
    · exact setter_twice (f := (setdec · m)) (exec_setDecoding m)
        (fun c => setdec_setdec c m m) ht hu
  case worked =>
    intro s hs
    rw [exec_setDecoding_eq_afterTransaction, hs]
    rfl

/-- Settles O22: the row decodes by its `A`, the byte pushed is `setdigit`, whose bits
`getLsbD_setdigit` gives, and a second run finds them set already; the worked example is the run at
`CS` = 0x58. -/
theorem setDigitReplacesTheLowThreeBitsAndPushes :
    Obligations.SetDigitReplacesTheLowThreeBitsAndPushes := by
  refine ⟨decodes_iff_selects_row (fun _ => rfl) fun _ => decode_setDigitRow,
    fun _ => decode_setDigitRow, ?run, rfl, ?worked⟩
  case run =>
    intro a s c hc
    obtain rfl : c = setdigit s.cs a := hc
    refine ⟨exec_setDigit_eq_afterTransaction a s, ?_, fun k hk => ?_, fun t u ht hu => ?_⟩
    · rw [csDigit_setdigit, csDigit_toNat]
    · rw [getLsbD_setdigit, if_neg (by omega)]
    · exact (setter_twice (f := (setdigit · a)) (exec_setDigit a)
        (fun c => setdigit_setdigit c a a) ht hu).1
  case worked =>
    intro s hs
    rw [exec_setDigit_eq_afterTransaction, hs]
    rfl

end Sys2Proof.Proofs
end

section
/-! PROOFS. The bus transaction (44_bus_transactions.md): CTRL_XACT and DATA_XACT, `BusWrite` as six events,
and the timing bounds along a trace of whole transactions and the begun part of one. -/

namespace Sys2Proof

/-- Where an operation's encoding packs its one operand `A`, every word of its row decodes to the operation
of the word's `A` (R71, R76). -/
theorem decode_byteOperandRow {op : Byte} {f : Byte → Instr}
    (hdec : ∀ a, decode (.host (packCommand op a 0#8 0#2 false)) = .ok (f a)) {w : BitVec 32}
    (h : w &&& 0xFF00FFFF#32 = packCommand op 0#8 0#8 0#2 false) :
    decode (.host w) = .ok (f (fieldA w)) := by
  have hw : w = packCommand op (fieldA w) 0#8 0#2 false := eq_packCommand_of_byteOperandRow h
  calc
    decode (.host w) = decode (.host (packCommand op (fieldA w) 0#8 0#2 false)) := by rw [← hw]
    _ = .ok (f (fieldA w)) := hdec (fieldA w)

theorem decode_ctrlXactRow {w : BitVec 32} (h : w &&& 0xFF00FFFF#32 = 0x07000000#32) :
    decode (.host w) = .ok (.ctrlXact (fieldA w)) :=
  decode_byteOperandRow (op := 0x07#8)
    (fun a => by simp [decode, decodeCommand, whenUnusedZero]) h

theorem decode_dataXactRow {w : BitVec 32} (h : w &&& 0xFF00FFFF#32 = 0x08000000#32) :
    decode (.host w) = .ok (.dataXact (fieldA w)) :=
  decode_byteOperandRow (op := 0x08#8)
    (fun a => by simp [decode, decodeCommand, whenUnusedZero]) h

end Sys2Proof

namespace Sys2Proof.Machine

open Sys2Proof.Safety

theorem exec_ctrlXact_eq_afterTransaction (b : Byte) (s : State) :
    exec (.ctrlXact b) s = .next (afterTransaction true b s) := by
  rw [exec_ctrlXact, busWrite_eq_afterTransaction]

theorem exec_dataXact_eq_afterTransaction (b : Byte) (s : State) :
    exec (.dataXact b) s = .next (afterTransaction false b s) := by
  rw [exec_dataXact, busWrite_eq_afterTransaction]

end Sys2Proof.Machine

namespace Sys2Proof.Safety

open Sys2Proof.Machine

/-! ## The timing bounds -/

/-- A trace keeps the bounds as long as any continuation of it does. -/
theorem timedFrom_of_append {c : Elapsed} {tr more : List Event}
    (h : timedFrom c (tr ++ more) = true) : timedFrom c tr = true := by
  induction c, tr using timedFrom.induct with
  | case1 => rfl
  | case2 c m rest ih | case3 c lo hi rest ih | case4 c n rest ih => exact ih h
  | case5 c rest ih | case6 c rest ih =>
    simp only [List.cons_append, timedFrom, Bool.and_eq_true] at h ⊢
    obtain ⟨hbound, hrest⟩ := h
    exact ⟨hbound, ih hrest⟩

/-- A transaction keeps both bounds whatever came before it, and what follows it starts with the strobe high
and both delays passed: its own SetMode, SetNibbles and SetStrobe(0) restart every count (R102, R105). -/
theorem timedFrom_transaction_append (c : Elapsed) (m : Level) (b : Byte) (rest : List Event) :
    timedFrom c (transaction m b ++ rest) =
      timedFrom
        { sinceMode := Config.tSettle + Config.tStrobe
          sinceNibbles := Config.tSettle + Config.tStrobe
          lowFor := none } rest := by
  simp [transaction, timedFrom, tSettle_bound, tStrobe_bound]

theorem timedFrom_transactions (c : Elapsed) (txs : List (Level × Byte)) :
    timedFrom c (transactions txs) = true := by
  induction txs generalizing c with
  | nil => rfl
  | cons tx txs ih =>
    obtain ⟨m, b⟩ := tx
    rw [transactions, timedFrom_transaction_append]
    exact ih _

/-- The begun part of a transaction is cut from a whole one, or from none. -/
theorem inProgress_append_eq_transactions (s : State) :
    ∃ more txs, inProgress s ++ more = transactions txs := by
  unfold inProgress
  split
  case h_1 => exact ⟨[], [], rfl⟩
  case h_2 cmd i _ =>
    split
    case h_1 => exact ⟨[], [], rfl⟩
    case h_2 part _ =>
      have hcut := List.take_append_drop (i % 6)
        (transaction part.level (carriedByte s.cs part.carried))
      exact ⟨_, [(part.level, carriedByte s.cs part.carried)], hcut.trans (List.append_nil _).symm⟩

/-- Completing the transaction in progress makes the trace whole transactions (R51, R53). -/
theorem TraceAtPointer.append_eq_transactions {s : State} (h : TraceAtPointer s) :
    ∃ more txs, s.tr ++ more = transactions txs := by
  obtain ⟨done, htr⟩ := h
  obtain ⟨more, last, hlast⟩ := inProgress_append_eq_transactions s
  refine ⟨more, done ++ last, ?_⟩
  rw [htr, List.append_assoc, hlast, transactions_append]

end Sys2Proof.Safety

namespace Sys2Proof.Proofs

open Sys2Proof.Machine Sys2Proof.Safety

/-- Settles O23: the row decodes by its `A`, and the run is one control transaction of that byte. -/
theorem ctrlXactSendsItsByteAsControl : Obligations.CtrlXactSendsItsByteAsControl :=
  ⟨decodes_iff_selects_row (fun _ => rfl) fun _ => decode_ctrlXactRow,
    fun _ => decode_ctrlXactRow, exec_ctrlXact_eq_afterTransaction, rfl, rfl⟩

/-- Settles O24: the row decodes by its `A`, and the run is one data transaction of that byte. -/
theorem dataXactSendsItsByteAsData : Obligations.DataXactSendsItsByteAsData :=
  ⟨decodes_iff_selects_row (fun _ => rfl) fun _ => decode_dataXactRow,
    fun _ => decode_dataXactRow, exec_dataXact_eq_afterTransaction, rfl, rfl⟩

/-- Settles O51: the trace of a safe state is the beginning of a run of whole transactions, and such a run
keeps the bounds, so its beginning does. -/
theorem everyTraceKeepsTheTimingBounds : Obligations.EveryTraceKeepsTheTimingBounds := by
  intro s hs
  obtain ⟨more, txs, htxs⟩ := hs.trace.append_eq_transactions
  refine timedFrom_of_append (more := more) ?_
  rw [htxs]
  exact timedFrom_transactions Elapsed.start txs

/-- Settles O35: `BusWrite` is the transaction of R102 on every state, and its parameters lie at or above
their bounds by their definition. -/
theorem busWriteIsTheSixEventsWhateverTheState :
    Obligations.BusWriteIsTheSixEventsWhateverTheState := by
  refine ⟨busWrite_eq_afterTransaction, fun m b s => ?sixEvents, tSettle_bound, tStrobe_bound⟩
  case sixEvents =>
    rw [busWrite_eq_afterTransaction]
    exact ⟨transaction m b, rfl, rfl, rfl⟩

end Sys2Proof.Proofs
end

section
/-! PROOFS. The first command after reset (70_reset_and_hazards.md R132): a command's encoding decodes to the
command, every operation answers a next state, and a step at IDLE is the run of the word presented. -/

namespace Sys2Proof

/-- A command's encoding has its own operation code, zero in bits 7:3 and in every unused field, and the
operands in the fields the decoder reads (R76). -/
theorem decode_encode_of_isCommand {i : Instr} (hi : i.isCommand = true) :
    decode (encode i) = .ok i := by
  cases i with
  | turnOn | turnOff | decodeType => rfl
  | updateDigit | setDecoding | setDigit | ctrlXact | dataXact =>
    simp [encode, decode, decodeCommand, whenUnusedZero]
  | busCtrl | busData => cases hi

end Sys2Proof

namespace Sys2Proof.Machine

/-- No operation faults and none is refused (R12, R110). -/
theorem exists_exec_eq_next (i : Instr) (s : State) : ∃ t, exec i s = .next t := by
  cases i <;> exact ⟨_, rfl⟩

/-- A legal word presented at IDLE runs whole on the state that has taken it from the host (R32, R56). -/
theorem step_issue_of_idle {s : State} {c : Encoded} {rest : List HostAct} {i : Instr}
    (hidle : s.seq = .idle) (hhost : s.host = .issue c :: rest) (hdecode : decode c = .ok i) :
    step s = exec i (setHost rest s) := by
  simp [step, runWhole, hidle, hhost, hdecode]

end Sys2Proof.Machine

namespace Sys2Proof.Proofs

open Sys2Proof.Machine

/-- Settles O44: SEQ is IDLE after reset, so the step runs the command that the word decodes to, on reset
itself, and every command answers a next state; `CS` after reset has the mode Code-B, whose code is 0. -/
theorem anyCommandRunsStraightAfterReset : Obligations.AnyCommandRunsStraightAfterReset := by
  refine ⟨rfl, ?firstCommand, ?query⟩
  case firstCommand =>
    intro i hi
    obtain ⟨t, ht⟩ := exists_exec_eq_next i State.reset
    have hstep : step { State.reset with host := [.issue (encode i)] } = exec i State.reset :=
      step_issue_of_idle rfl rfl (decode_encode_of_isCommand hi)
    exact ⟨t, hstep.trans ht, ht⟩
  case query =>
    have hcode : State.reset.rspCode = 0#2 := congrArg responseCode decodeModeOf_reset
    refine ⟨_, exec_decodeType State.reset, ?_⟩
    rw [deliver_responses, reset_responses, hcode, List.nil_append]

end Sys2Proof.Proofs
end

section
/-! PROOFS. The command word's encoder and decoder (30_encoding.md R71, R72, R76): each undoes the
other, a word decodes exactly when it selects a row, and the ILLEGAL words are those of three cases. -/

namespace Sys2Proof

open Sys2Proof.Machine

/-! ## A bus word's fields read back -/

/-- The six fields of a control word are what it was packed from (R60). -/
theorem fields_packControl (dc hex nd sd bank : Bool) (digit : BitVec 3) :
    csDc (packControl dc hex nd sd bank digit) = dc ∧
    csHex (packControl dc hex nd sd bank digit) = hex ∧
    csNd (packControl dc hex nd sd bank digit) = nd ∧
    csSd (packControl dc hex nd sd bank digit) = sd ∧
    csBank (packControl dc hex nd sd bank digit) = bank ∧
    csDigit (packControl dc hex nd sd bank digit) = digit := by
  refine ⟨getLsbD_packControl _ _ _ _ _ _ (by decide), getLsbD_packControl _ _ _ _ _ _ (by decide),
    getLsbD_packControl _ _ _ _ _ _ (by decide), getLsbD_packControl _ _ _ _ _ _ (by decide),
    getLsbD_packControl _ _ _ _ _ _ (by decide), BitVec.eq_of_getLsbD_eq fun k hk => ?_⟩
  rw [csDigit, BitVec.getLsbD_extractLsb', Nat.zero_add, getLsbD_packControl _ _ _ _ _ _ (by omega)]
  simp [hk]

/-- The payload of a data word is what it was packed from, and so is bit 7 (R61). -/
theorem fields_packData (dpn : Bool) (payload : BitVec 7) :
    (packData dpn payload).getLsbD 7 = dpn ∧ (packData dpn payload).extractLsb' 0 7 = payload := by
  constructor
  · rw [packData, BitVec.getLsbD_append]
    exact BitVec.getLsbD_ofBool ..
  · exact BitVec.extractLsb'_append_eq_right

/-! ## Decoding and encoding undo each other -/

theorem decode_encode (i : Instr) : decode (encode i) = .ok i := by
  cases i with
  | busCtrl dc hex nd sd bank digit =>
    obtain ⟨hdc, hhex, hnd, hsd, hbank, hdigit⟩ := fields_packControl dc hex nd sd bank digit
    rw [encode, decode_bus_control, hdc, hhex, hnd, hsd, hbank, hdigit]
  | busData dpn payload =>
    obtain ⟨hdpn, hpayload⟩ := fields_packData dpn payload
    rw [encode, decode_bus_data, hdpn, hpayload]
  | _ => exact decode_encode_of_isCommand rfl

theorem encode_carries (i : Instr) : (encode i).carries i = true := by
  cases i <;> rfl

theorem encode_eq_of_decode {c : Encoded} {i : Instr} (h : decode c = .ok i) : encode i = c := by
  cases c with
  | host w => exact encode_eq_host_of_decodeCommand h
  | bus w =>
    obtain ⟨b, rfl | rfl⟩ := busWord_eq_append w
    · rw [decode_bus_control] at h
      cases h
      exact encode_busCtrl_fields b
    · rw [decode_bus_data] at h
      cases h
      exact encode_busData_fields b

/-! ## The rows of the opcode table -/

theorem commandRow_mem {i : Instr} {row : BitVec 32 × BitVec 32} (h : commandRow i = some row) :
    row ∈ commandRows := by
  cases i <;> cases h <;> decide

/-- A row whose mask is all ones selects one word. -/
theorem eq_of_selectsRow_allOnes {w x : BitVec 32} (h : selectsRow w (x, 0xFFFFFFFF#32) = true) :
    w = x := by
  have hand : w &&& BitVec.allOnes 32 = x := beq_iff_eq.mp h
  rwa [BitVec.and_allOnes] at hand

/-- Every word of every row decodes (R71). -/
theorem decodes_of_selectsRow {w : BitVec 32} {row : BitVec 32 × BitVec 32} (hrow : row ∈ commandRows)
    (h : selectsRow w row = true) : ∃ i, decode (.host w) = .ok i := by
  simp only [commandRows, List.mem_cons, List.not_mem_nil, or_false] at hrow
  rcases hrow with rfl | rfl | rfl | rfl | rfl | rfl | rfl | rfl
  case inl =>
    have hand : w &&& 0xFF0000F8#32 = 0x01000000#32 := beq_iff_eq.mp h
    exact ⟨_, decode_host_eq_updateDigit_iff.mpr
      ⟨(and_updateDigitMask_eq_iff w).mp hand, rfl, rfl, rfl, rfl⟩⟩
  case inr.inl => exact ⟨.turnOn, by rw [eq_of_selectsRow_allOnes h]; rfl⟩
  case inr.inr.inl => exact ⟨.turnOff, by rw [eq_of_selectsRow_allOnes h]; rfl⟩
  case inr.inr.inr.inl => exact ⟨.decodeType, by rw [eq_of_selectsRow_allOnes h]; rfl⟩
  case inr.inr.inr.inr.inl => exact ⟨_, decode_setDecodingRow (beq_iff_eq.mp h)⟩
  case inr.inr.inr.inr.inr.inl => exact ⟨_, decode_setDigitRow (beq_iff_eq.mp h)⟩
  case inr.inr.inr.inr.inr.inr.inl => exact ⟨_, decode_ctrlXactRow (beq_iff_eq.mp h)⟩
  case inr.inr.inr.inr.inr.inr.inr => exact ⟨_, decode_dataXactRow (beq_iff_eq.mp h)⟩

/-- Every mask covers `OP`, so the row a word selects has the word's operation code. -/
theorem fieldOp_eq_of_selectsRow {w : BitVec 32} {row : BitVec 32 × BitVec 32}
    (hrow : row ∈ commandRows) (h : selectsRow w row = true) : fieldOp w = fieldOp row.1 := by
  have hcovered : ∀ r ∈ commandRows, fieldOp r.2 = 0xFF#8 := by
    simp [commandRows, fieldOp]
  have hand : w &&& row.2 = row.1 := beq_iff_eq.mp h
  rw [← hand, fieldOp_and, hcovered row hrow]
  exact BitVec.and_allOnes.symm

/-- No two rows have the same operation code. -/
theorem commandRow_ext : ∀ row ∈ commandRows, ∀ row' ∈ commandRows,
    fieldOp row.1 = fieldOp row'.1 → row = row' := by
  simp [commandRows, fieldOp]

/-! ## The ILLEGAL words -/

/-- The checks fail when bits 7:3 are not zero or an unused field is not (R72). -/
theorem whenUnusedZero_eq_error {w : BitVec 32} {unusedZero : Bool} {i : Instr} :
    (∃ why, whenUnusedZero w unusedZero i = .error why) ↔ fieldZ w ≠ 0#5 ∨ unusedZero = false := by
  unfold whenUnusedZero
  split_ifs <;> simp_all

end Sys2Proof

namespace Sys2Proof.Proofs

open Sys2Proof.Machine

/-- Settles O1: the decoder reads back the fields the encoder packed, for the commands
(`decode_encode_of_isCommand`) and for the two bus words. -/
theorem decodeOfEncodeIsTheInstruction : Obligations.DecodeOfEncodeIsTheInstruction :=
  fun i => ⟨decode_encode i, encode_carries i⟩

/-- Settles O2: a legal word of either format is packed from the fields the decoder read. -/
theorem encodeOfDecodeIsTheWord : Obligations.EncodeOfDecodeIsTheWord :=
  fun _ _ => encode_eq_of_decode

/-- Settles O3: the words of each row decode, a decoded word selects its instruction's row, and two rows
that one word selects have one operation code. -/
theorem commandWordDecodesIffItSelectsOneRow : Obligations.CommandWordDecodesIffItSelectsOneRow := by
  refine fun w => ⟨⟨?selects, ?decodes⟩, fun _ => selectsRow_of_decode, ?unique⟩
  case selects =>
    rintro ⟨i, hi⟩
    obtain ⟨row, hcommand, hsel⟩ := selectsRow_of_decode hi
    exact ⟨row, commandRow_mem hcommand, hsel⟩
  case decodes =>
    rintro ⟨row, hrow, hsel⟩
    exact decodes_of_selectsRow hrow hsel
  case unique =>
    intro row hrow row' hrow' hsel hsel'
    exact commandRow_ext row hrow row' hrow'
      ((fieldOp_eq_of_selectsRow hrow hsel).symm.trans (fieldOp_eq_of_selectsRow hrow' hsel'))

/-- Settles O4: with one of the eight codes the word is ILLEGAL when the operation's checks fail
(`whenUnusedZero_eq_error`); any other code is 0x00 or at least 0x09. -/
theorem illegalWordsAreThoseOfTheThreeCases : Obligations.IllegalWordsAreThoseOfTheThreeCases := by
  intro w
  simp only [decode, decodeCommand]
  split_ifs with h1 h2 h3 h4 h5 h6 h7 h8
  case neg =>
    have hop : fieldOp w = 0x00#8 ∨ 0x09 ≤ (fieldOp w).toNat := by bv_omega
    exact iff_of_true ⟨_, rfl⟩ (.inl hop)
  all_goals
    rw [whenUnusedZero_eq_error]
    simp_all [imp_iff_not_or, or_assoc]

/-- Settles O5: the decoder computes each word of the table. -/
theorem sampleWordsDecodeAsTabulated : Obligations.SampleWordsDecodeAsTabulated := by
  and_intros <;> rfl

end Sys2Proof.Proofs
end

section
/-! PROOFS. What a whole command does, said once from its list of transactions (20_memory.md R47, R51):
`CS` after their mutations, the trace and the latches after their events; and the transaction view of
what it appends. -/

namespace Sys2Proof.Safety

open Sys2Proof.Machine

/-! ## Whole transactions -/

/-- The transactions of a list of parts as (mode level, byte) pairs, each byte read after its mutation
of `CS` (R51, R81). -/
def transactionsOf (c : Byte) : List Part → List (Level × Byte)
  | [] => []
  | part :: rest =>
    (part.level, carriedByte (changeCs c part.change) part.carried) ::
      transactionsOf (changeCs c part.change) rest

theorem eventsOf_eq_transactions (c : Byte) (ps : List Part) :
    eventsOf c ps = transactions (transactionsOf c ps) := by
  induction ps generalizing c with
  | nil => rfl
  | cons part ps ih => rw [eventsOf, transactionsOf, transactions, ih]

theorem map_fst_transactionsOf (c : Byte) (ps : List Part) :
    (transactionsOf c ps).map Prod.fst = ps.map Part.level := by
  induction ps generalizing c with
  | nil => rfl
  | cons part ps ih => simp [transactionsOf, ih]

/-- A mutation-wise invariant of `CS` holds after any list of mutations. -/
theorem chipStateAfter_induction {P : Byte → Prop} (hchange : ∀ c ch, P c → P (changeCs c ch))
    {c : Byte} (hc : P c) (ps : List Part) : P (chipStateAfter c ps) := by
  induction ps generalizing c with
  | nil => exact hc
  | cons part ps ih => exact ih (hchange c part.change hc)

/-- The transaction view reads a run of transactions back (R51). -/
theorem txView_transactions (txs : List (Level × Byte)) : txView (transactions txs) = some txs := by
  induction txs with
  | nil => rfl
  | cons tx txs ih =>
    obtain ⟨m, b⟩ := tx
    rw [transactions, transaction_eq, txView_busEvents, ih, Option.map_some]

/-- More transactions on a trace with a view are more entries of the view. -/
theorem txView_append_transactions {tr : List Event} {txs : List (Level × Byte)}
    (h : txView tr = some txs) (more : List (Level × Byte)) :
    txView (tr ++ transactions more) = some (txs ++ more) := by
  rw [txView_append _ _ _ h, txView_transactions, Option.map_some]

theorem transactions_singleton (m : Level) (b : Byte) : transactions [(m, b)] = transaction m b :=
  List.append_nil _

/-- The latches after a transaction, whatever they were (R106, R107). -/
theorem foldl_transaction (m : Level) (b : Byte) (l : Lines) :
    (transaction m b).foldl applyEvent l = linesAfter m b := by
  rw [transaction_eq, foldl_busEvents, linesAfter_eq]

/-- Whole transactions leave the strobe high (R102, R106). -/
theorem wr_foldl_transactions {l : Lines} (hl : l.wr = true) (txs : List (Level × Byte)) :
    ((transactions txs).foldl applyEvent l).wr = true := by
  induction txs generalizing l with
  | nil => exact hl
  | cons tx txs ih =>
    rw [transactions, List.foldl_append, foldl_transaction]
    exact ih rfl

end Sys2Proof.Safety

namespace Sys2Proof.Machine

open Sys2Proof.Safety

/-! ## A whole command -/

/-- What a command delivers on the response port: DECODE_TYPE its code, no other anything (R66, R94). -/
def delivered (i : Instr) (s : State) : List (BitVec 2) :=
  match i with
  | .decodeType => [s.rspCode]
  | _ => []

/-- `s` after a whole command, from the command's list of transactions. -/
def afterCommand (i : Instr) (s : State) : State :=
  { s with
    cs := chipStateAfter s.cs (parts i)
    lines := (eventsOf s.cs (parts i)).foldl applyEvent s.lines
    tr := s.tr ++ eventsOf s.cs (parts i)
    responses := s.responses ++ delivered i s }

theorem delivered_eq_nil {i : Instr} (hi : i ≠ .decodeType) (s : State) : delivered i s = [] := by
  unfold delivered
  split
  · exact absurd rfl hi
  · rfl

/-- A command of one transaction is the mutation of `CS` and one `BusWrite`. -/
theorem afterCommand_of_parts_eq_singleton {i : Instr} {part : Part} (hi : parts i = [part]) (s : State) :
    afterCommand i s =
      busWrite part.level (carriedByte (changeCs s.cs part.change) part.carried)
        (writeCs (changeCs s.cs part.change) s) := by
  have hquery : i ≠ .decodeType := fun h =>
    List.cons_ne_nil _ _ (hi.symm.trans ((parts_eq_nil_iff i).mpr h))
  simp [busWrite_eq_afterTransaction, afterTransaction, afterCommand, hi, delivered_eq_nil hquery,
    chipStateAfter, eventsOf, foldl_transaction, writeCs]

@[simp] theorem afterCommand_cs (i : Instr) (s : State) :
    (afterCommand i s).cs = chipStateAfter s.cs (parts i) := rfl
@[simp] theorem afterCommand_tr (i : Instr) (s : State) :
    (afterCommand i s).tr = s.tr ++ transactions (transactionsOf s.cs (parts i)) := by
  rw [← eventsOf_eq_transactions, afterCommand]
@[simp] theorem afterCommand_lines (i : Instr) (s : State) :
    (afterCommand i s).lines =
      (transactions (transactionsOf s.cs (parts i))).foldl applyEvent s.lines := by
  rw [← eventsOf_eq_transactions, afterCommand]
@[simp] theorem afterCommand_seq (i : Instr) (s : State) : (afterCommand i s).seq = s.seq := rfl
@[simp] theorem afterCommand_responses (i : Instr) (s : State) :
    (afterCommand i s).responses = s.responses ++ delivered i s := rfl
@[simp] theorem afterCommand_host (i : Instr) (s : State) : (afterCommand i s).host = s.host := rfl

/-- The transaction view grows by the command's own list (R47, R51). -/
theorem txView_afterCommand {s : State} {txs : List (Level × Byte)} (h : txView s.tr = some txs)
    (i : Instr) :
    txView (afterCommand i s).tr = some (txs ++ transactionsOf s.cs (parts i)) := by
  rw [afterCommand_tr]
  exact txView_append_transactions h _

/-- The meaning of every instruction is the run of its list of transactions (R75). -/
theorem exec_eq_afterCommand (i : Instr) (s : State) : exec i s = .next (afterCommand i s) := by
  cases i with
  | updateDigit a m v p =>
    simp [exec_updateDigit_eq_transactions a m v p s _ _ _ rfl rfl rfl, afterCommand, delivered, parts,
      chipStateAfter, eventsOf, transactions, changeCs, carriedByte, foldl_transaction]
  | decodeType =>
    simp [exec_decodeType, deliver, afterCommand, delivered, parts, chipStateAfter, eventsOf]
  | turnOn | turnOff | setDecoding | setDigit | ctrlXact | dataXact | busCtrl | busData =>
    rw [afterCommand_of_parts_eq_singleton rfl]
    rfl

theorem eq_afterCommand_of_exec {i : Instr} {s t : State} (h : exec i s = .next t) :
    t = afterCommand i s := by
  rw [exec_eq_afterCommand] at h
  cases h
  rfl

end Sys2Proof.Machine
end

section
/-! PROOFS. The event-level sequencer (10_state.md R32): one event step, the run of the events a command
has left, and its agreement with the whole command (R32, decision D16). -/

namespace Sys2Proof.Machine

open Sys2Proof.Safety

/-! ## One event -/

/-- An event step inside the event list performs event `i` of the command, on the `CS` that event sees,
and advances the pointer (R32, R81). -/
theorem eventStep_of_index {cmd : Instr} {i : Nat} (hi : i < eventCount cmd) (s : State) :
    ∃ part e, (parts cmd)[i / 6]? = some part ∧
      (transaction part.level (carriedByte (chipStateAt part i s.cs) part.carried))[i % 6]? = some e ∧
      eventStep cmd i s =
        { s with
          cs := chipStateAt part i s.cs
          lines := applyEvent s.lines e
          tr := s.tr ++ [e]
          seq := nextSeq cmd i } := by
  obtain ⟨part, hpart⟩ := part_of_index hi
  have hk : i % 6 < 6 := Nat.mod_lt _ (by decide)
  obtain ⟨e, he⟩ := busEvents_getElem? (m := part.level)
    (b := carriedByte (chipStateAt part i s.cs) part.carried) hk
  exact ⟨part, e, hpart, (transaction_eq ..).symm ▸ he, eventStep_of_lt hpart he⟩

/-- While a command runs and no reset is asserted, a step is the next event; a presented word waits and
a pass is consumed (R56). -/
theorem step_eq_eventStep {s : State} {cmd : Instr} {i : Nat} {hs : List HostAct}
    (hseq : s.seq = .run cmd i)
    (hhost : (waitsForReady s.host = true ∧ hs = s.host) ∨ s.host = .pass :: hs) :
    step s = .next (eventStep cmd i (setHost hs s)) := by
  obtain ⟨hwaits, rfl⟩ | hpass := hhost
  · exact step_of_run hseq hwaits
  · simp [step, hpass, hseq]

/-- While a command runs nothing but an event of it can happen without a reset. -/
theorem eq_eventStep_of_step {s t : State} {cmd : Instr} {i : Nat} (hseq : s.seq = .run cmd i)
    (hno : noReset s.host = true) (h : step s = .next t) :
    ∃ hs, t = eventStep cmd i (setHost hs s) := by
  obtain ⟨rest, hreset, -⟩ | ⟨cmd', i', hs, hseq', -, rfl⟩ | ⟨hidle, -⟩ | ⟨hidle, -⟩ | ⟨hidle, -⟩ :=
    step_cases h
  case inl => simp [hreset, noReset] at hno
  case inr.inl =>
    rw [hseq] at hseq'
    cases hseq'
    exact ⟨hs, rfl⟩
  all_goals simp [hseq] at hidle

/-! ## The events left -/

theorem eventsLeft_of_end (cmd : Instr) (c : Byte) :
    eventsLeft cmd (eventCount cmd) c = [] ∧ chipStateAtEnd cmd (eventCount cmd) c = c := by
  have hdrop : (parts cmd).drop (eventCount cmd / 6) = [] := by
    simp [eventCount]
  simp [eventsLeft, chipStateAtEnd, hdrop]

/-- At event 0 the whole command is left. -/
theorem eventsLeft_zero (cmd : Instr) (c : Byte) :
    eventsLeft cmd 0 c = eventsOf c (parts cmd) ∧
      chipStateAtEnd cmd 0 c = chipStateAfter c (parts cmd) := by
  simp only [eventsLeft, chipStateAtEnd, Nat.zero_div, List.drop_zero]
  cases parts cmd with
  | nil => exact ⟨rfl, rfl⟩
  | cons part rest => exact ⟨rfl, rfl⟩

theorem eventsLeft_length {cmd : Instr} {i : Nat} (hi : i < eventCount cmd) (c : Byte) :
    (eventsLeft cmd i c).length = eventCount cmd - i := by
  have hlt : i / 6 < (parts cmd).length := by
    unfold eventCount at hi
    omega
  simp only [eventsLeft, List.drop_eq_getElem_cons hlt, List.length_append, List.length_drop,
    transaction_length, eventsOf_length, eventCount]
  omega

/-- The rest of a begun transaction ends with the strobe high (R102). -/
theorem wr_foldl_drop_transaction (m : Level) (b : Byte) {k : Nat} (hk : k < 6) (l : Lines) :
    (((transaction m b).drop k).foldl applyEvent l).wr = true := by
  interval_cases k <;> rfl

theorem wr_foldl_eventsLeft {cmd : Instr} {i : Nat} (hi : i < eventCount cmd) (c : Byte) (l : Lines) :
    ((eventsLeft cmd i c).foldl applyEvent l).wr = true := by
  have hlt : i / 6 < (parts cmd).length := by
    unfold eventCount at hi
    omega
  simp only [eventsLeft, List.drop_eq_getElem_cons hlt, List.foldl_append, eventsOf_eq_transactions]
  exact wr_foldl_transactions (wr_foldl_drop_transaction _ _ (Nat.mod_lt _ (by decide)) l) _

/-- `s` after the events `cmd` has left at index `i` and nothing else. -/
def afterEventsLeft (cmd : Instr) (i : Nat) (s : State) : State :=
  { s with
    cs := chipStateAtEnd cmd i s.cs
    lines := (eventsLeft cmd i s.cs).foldl applyEvent s.lines
    tr := s.tr ++ eventsLeft cmd i s.cs
    seq := .idle }

/-- An event step leaves the rest of the events to the state it answers. -/
theorem afterEventsLeft_eventStep {cmd : Instr} {i : Nat} (hi : i < eventCount cmd) (s : State) :
    afterEventsLeft cmd (i + 1) (eventStep cmd i s) = afterEventsLeft cmd i s := by
  obtain ⟨part, e, hpart, he, hstep⟩ := eventStep_of_index hi s
  obtain ⟨hleft, hcs⟩ := eventsLeft_cons hpart he
  simp [afterEventsLeft, hstep, hleft, hcs]

/-- A command at event `i`, or at IDLE when `i` is past its last event, performs its `n` remaining
events in `n` steps (R53 (d)). -/
theorem stepN_eq_afterEventsLeft {cmd : Instr} (n : Nat) {i : Nat} {s : State}
    (hn : i + n = eventCount cmd) (hseq : s.seq = if i < eventCount cmd then .run cmd i else .idle)
    (hwaits : waitsForReady s.host = true) : stepN n s = .next (afterEventsLeft cmd i s) := by
  induction n generalizing i s with
  | zero =>
    obtain rfl : i = eventCount cmd := hn
    obtain ⟨hleft, hcs⟩ := eventsLeft_of_end cmd s.cs
    rw [if_neg (lt_irrefl _)] at hseq
    simp [stepN, afterEventsLeft, hleft, hcs, ← hseq]
  | succ n ih =>
    have hi : i < eventCount cmd := by omega
    rw [if_pos hi] at hseq
    obtain ⟨_, _, _, _, hstep⟩ := eventStep_of_index hi s
    have hnext : (eventStep cmd i s).seq = nextSeq cmd i := by rw [hstep]
    calc
      stepN (n + 1) s = stepN n (eventStep cmd i s) := stepN_succ n (step_of_run hseq hwaits)
      _ = .next (afterEventsLeft cmd (i + 1) (eventStep cmd i s)) :=
        ih (by omega) hnext (by rwa [eventStep_host])
      _ = .next (afterEventsLeft cmd i s) := by rw [afterEventsLeft_eventStep hi]

/-! ## Acceptance -/

/-- A legal word presented at IDLE to be performed event by event is accepted (R32, R56). -/
theorem step_start_of_idle {s : State} {c : Encoded} {rest : List HostAct} {i : Instr}
    (hidle : s.seq = .idle) (hhost : s.host = .start c :: rest) (hdecode : decode c = .ok i) :
    step s = .next (acceptCommand i (setHost rest s)) := by
  simp [step, runByEvents, hidle, hhost, hdecode]

theorem acceptCommand_decodeType (s : State) : acceptCommand .decodeType s = deliver s.rspCode s := rfl

/-- Every command but DECODE_TYPE starts at event 0 (R32). -/
theorem acceptCommand_of_ne_decodeType {i : Instr} (hi : i ≠ .decodeType) (s : State) :
    acceptCommand i s = setSeq (.run i 0) s := by
  obtain ⟨hnil, -⟩ | ⟨-, haccept⟩ := acceptCommand_cases i s
  · exact absurd ((parts_eq_nil_iff i).mp hnil) hi
  · exact haccept

theorem eventCount_pos_of_ne_decodeType {i : Instr} (hi : i ≠ .decodeType) : 0 < eventCount i := by
  have hparts : (parts i).length ≠ 0 := fun h =>
    hi ((parts_eq_nil_iff i).mp (List.length_eq_zero_iff.mp h))
  unfold eventCount
  omega

/-- From event 0 the events left are the whole command. -/
theorem afterEventsLeft_zero {i : Instr} (hi : i ≠ .decodeType) {s : State} (hidle : s.seq = .idle) :
    afterEventsLeft i 0 (setSeq (.run i 0) s) = afterCommand i s := by
  obtain ⟨hleft, hcs⟩ := eventsLeft_zero i s.cs
  simp [afterEventsLeft, afterCommand, hleft, hcs, delivered_eq_nil hi, ← hidle, setSeq]

end Sys2Proof.Machine

namespace Sys2Proof.Proofs

open Sys2Proof.Machine Sys2Proof.Safety

/-- Settles O11: the step is an event step (`step_eq_eventStep`), and that performs event `i`. -/
theorem busySequencerPerformsOneEventAndHoldsTheHost :
    Obligations.BusySequencerPerformsOneEventAndHoldsTheHost := by
  intro s cmd i hs hseq hi hhost
  obtain ⟨part, e, hpart, he, hstep⟩ := eventStep_of_index hi (setHost hs s)
  exact ⟨part, e, hpart, he, (step_eq_eventStep hseq hhost).trans (congrArg _ hstep)⟩

/-- Settles O14: event `i` sees the mutation of transaction `i / 6` exactly when it is the first of its
six, and the third transaction of UPDATE_DIGIT has none. -/
theorem updateDigitMutatesBeforeEachTransaction :
    Obligations.UpdateDigitMutatesBeforeEachTransaction := by
  intro s t a m v p i hseq hi hno hstep
  obtain ⟨hs, rfl⟩ := eq_eventStep_of_step hseq hno hstep
  obtain ⟨part, e, hpart, -, hevent⟩ := eventStep_of_index (cmd := .updateDigit a m v p) hi (setHost hs s)
  have hcs : (eventStep (.updateDigit a m v p) i (setHost hs s)).cs = chipStateAt part i s.cs := by
    rw [hevent, setHost_cs]
  rw [hcs, chipStateAt]
  obtain h0 | h1 | h2 : i / 6 = 0 ∨ i / 6 = 1 ∨ i / 6 = 2 := by omega
  · rw [h0] at hpart
    cases hpart
    simp [changeCs, show i % 6 = 0 ↔ i = 0 by omega, show i ≠ 6 by omega]
  · rw [h1] at hpart
    cases hpart
    simp [changeCs, show i % 6 = 0 ↔ i = 6 by omega, show i ≠ 0 by omega]
  · rw [h2] at hpart
    cases hpart
    simp [changeCs, show i ≠ 0 by omega, show i ≠ 6 by omega]

/-- Settles O16: the run is an induction over the events left (`stepN_eq_afterEventsLeft`), and the last
of them raises the strobe. -/
theorem runningCommandCompletes : Obligations.RunningCommandCompletes := by
  intro s cmd i hseq hi hwaits
  refine ⟨afterEventsLeft cmd i s, stepN_eq_afterEventsLeft _ (Nat.add_sub_cancel' hi.le) ?_ hwaits, rfl,
    eventsLeft_length hi s.cs, rfl, wr_foldl_eventsLeft hi s.cs s.lines⟩
  rw [hseq, if_pos hi]

/-- Settles O15: DECODE_TYPE answers when it is accepted; any other command starts at event 0, and the
events left there are the whole command, which is what `exec` performs. -/
theorem eventLevelRunEqualsTheWholeCommand : Obligations.EventLevelRunEqualsTheWholeCommand := by
  intro s i rest hidle hwaits
  have haccept : step { s with host := .start (encode i) :: rest } =
      .next (acceptCommand i (setHost rest s)) := step_start_of_idle hidle rfl (decode_encode i)
  rw [stepN_succ _ haccept]
  by_cases hi : i = .decodeType
  · subst hi
    rw [acceptCommand_decodeType, exec_decodeType]
    rfl
  · have hrun : stepN (eventCount i) (setSeq (.run i 0) (setHost rest s)) =
        .next (afterEventsLeft i 0 (setSeq (.run i 0) (setHost rest s))) :=
      stepN_eq_afterEventsLeft _ (Nat.zero_add _)
        (if_pos (eventCount_pos_of_ne_decodeType hi)).symm hwaits
    rw [acceptCommand_of_ne_decodeType hi, hrun, exec_eq_afterCommand]
    exact congrArg _ (afterEventsLeft_zero hi hidle)

end Sys2Proof.Proofs
end

section
/-! PROOFS. The command port (20_memory.md R56, 30_encoding.md R72, 00_scope.md R12): what a step does
with the host's action, which words it refuses, and what every step leaves of the trace and of two bits
of `CS`. -/

namespace Sys2Proof

/-- No bus word is ILLEGAL (R62). -/
theorem exists_host_of_decode_eq_error {c : Encoded} {why : Illegal} (h : decode c = .error why) :
    ∃ w, c = .host w := by
  cases c with
  | host w => exact ⟨w, rfl⟩
  | bus w => cases h

end Sys2Proof

namespace Sys2Proof.Machine

open Sys2Proof.Safety

/-! ## One step, by the host's action -/

/-- An ILLEGAL command word presented at IDLE is refused at either granularity (R72). -/
theorem step_of_illegal {s : State} {w : BitVec 32} {why : Illegal} {rest : List HostAct}
    (hidle : s.seq = .idle)
    (hhost : s.host = .issue (.host w) :: rest ∨ s.host = .start (.host w) :: rest)
    (hdecode : decode (.host w) = .error why) : step s = .refused (.illegalCommand why w) := by
  obtain hissue | hstart := hhost
  · simp [step, runWhole, hidle, hissue, hdecode, refusedWord]
  · simp [step, runByEvents, hidle, hstart, hdecode, refusedWord]

theorem step_reset {s : State} {rest : List HostAct} (hhost : s.host = .reset :: rest) :
    step s = .next (takeReset rest) := by
  simp [step, hhost]

/-- A step answers a next state, or it is at IDLE and refuses the ILLEGAL word presented (R12, R72,
R110). -/
theorem step_next_or_refused (s : State) :
    (∃ t, step s = .next t) ∨
      (s.seq = .idle ∧ ∃ why w rest, step s = .refused (.illegalCommand why w) ∧
        decode (.host w) = .error why ∧
        (s.host = .issue (.host w) :: rest ∨ s.host = .start (.host w) :: rest)) := by
  cases hseq : s.seq with
  | run cmd i =>
    refine .inl ?_
    cases hhost : s.host with
    | nil => exact ⟨_, step_of_run hseq (by rw [hhost]; rfl)⟩
    | cons act rest =>
      cases act with
      | issue c | start c => exact ⟨_, step_of_run hseq (by rw [hhost]; rfl)⟩
      | pass => exact ⟨_, step_eq_eventStep hseq (.inr hhost)⟩
      | reset => exact ⟨_, step_reset hhost⟩
  | idle =>
    cases hhost : s.host with
    | nil => exact .inl ⟨s, by simp [step, hseq, hhost]⟩
    | cons act rest =>
      cases act with
      | pass => exact .inl ⟨setHost rest s, by simp [step, hseq, hhost]⟩
      | reset => exact .inl ⟨_, step_reset hhost⟩
      | issue c =>
        cases hdecode : decode c with
        | ok i => exact .inl ⟨_, (step_issue_of_idle hseq hhost hdecode).trans (exec_eq_afterCommand ..)⟩
        | error why =>
          obtain ⟨w, rfl⟩ := exists_host_of_decode_eq_error hdecode
          exact .inr ⟨rfl, why, w, rest, step_of_illegal hseq (.inl hhost) hdecode, hdecode, .inl rfl⟩
      | start c =>
        cases hdecode : decode c with
        | ok i => exact .inl ⟨_, step_start_of_idle hseq hhost hdecode⟩
        | error why =>
          obtain ⟨w, rfl⟩ := exists_host_of_decode_eq_error hdecode
          exact .inr ⟨rfl, why, w, rest, step_of_illegal hseq (.inr hhost) hdecode, hdecode, .inr rfl⟩

/-! ## What a step without a reset leaves -/

theorem noReset_eq_false_iff {hs : List HostAct} : noReset hs = false ↔ ∃ rest, hs = .reset :: rest := by
  cases hs with
  | nil => simp [noReset]
  | cons act rest => cases act <;> simp [noReset]

@[simp] theorem acceptCommand_cs (i : Instr) (s : State) : (acceptCommand i s).cs = s.cs := by
  obtain ⟨-, h⟩ | ⟨-, h⟩ := acceptCommand_cases i s <;> rw [h] <;> rfl

@[simp] theorem acceptCommand_tr (i : Instr) (s : State) : (acceptCommand i s).tr = s.tr := by
  obtain ⟨-, h⟩ | ⟨-, h⟩ := acceptCommand_cases i s <;> rw [h] <;> rfl

/-- Past its last event a command ends and performs nothing (R32 excludes the case). -/
theorem eventStep_of_ge {cmd : Instr} {i : Nat} (hi : eventCount cmd ≤ i) (s : State) :
    eventStep cmd i s = setSeq .idle s := by
  have hpart : (parts cmd)[i / 6]? = none := by
    unfold eventCount at hi
    exact List.getElem?_eq_none (by omega)
  rw [eventStep, hpart]

/-- An event step, inside the event list or not, makes at most one mutation of `CS` and appends at most
one event. -/
theorem eventStep_cs_tr (cmd : Instr) (i : Nat) (s : State) :
    ((eventStep cmd i s).cs = s.cs ∨ ∃ ch, (eventStep cmd i s).cs = changeCs s.cs ch) ∧
      ∃ es, (eventStep cmd i s).tr = s.tr ++ es ∧ es.length ≤ 1 := by
  rcases Nat.lt_or_ge i (eventCount cmd) with hi | hi
  · obtain ⟨part, e, -, -, hstep⟩ := eventStep_of_index hi s
    rw [hstep]
    refine ⟨?_, [e], rfl, le_rfl⟩
    simp only [chipStateAt]
    split_ifs
    · exact .inr ⟨part.change, rfl⟩
    · exact .inl rfl
  · rw [eventStep_of_ge hi]
    exact ⟨.inl rfl, [], (List.append_nil _).symm, Nat.zero_le _⟩

/-- What every mutation of `CS` keeps, every step but a reset keeps. -/
theorem cs_induction_of_step {P : Byte → Prop} (hchange : ∀ c ch, P c → P (changeCs c ch)) {s t : State}
    (hno : noReset s.host = true) (hP : P s.cs) (h : step s = .next t) : P t.cs := by
  obtain ⟨rest, hreset, -⟩ | ⟨cmd, i, hs, -, -, rfl⟩ | ⟨-, hs, -, rfl⟩ |
    ⟨-, _, i, rest, -, -, hexec⟩ | ⟨-, _, i, rest, -, -, rfl⟩ := step_cases h
  case inl => simp [hreset, noReset] at hno
  case inr.inl =>
    obtain ⟨hcs | ⟨ch, hcs⟩, -⟩ := eventStep_cs_tr cmd i (setHost hs s)
    · rwa [hcs]
    · rw [hcs]
      exact hchange _ ch hP
  case inr.inr.inl => exact hP
  case inr.inr.inr.inl =>
    rw [eq_afterCommand_of_exec hexec]
    exact chipStateAfter_induction hchange hP (parts i)
  case inr.inr.inr.inr => rwa [acceptCommand_cs]

/-- Every step but a reset appends to the trace (R31). -/
theorem tr_append_of_step {s t : State} (hno : noReset s.host = true) (h : step s = .next t) :
    s.tr <+: t.tr := by
  obtain ⟨rest, hreset, -⟩ | ⟨cmd, i, hs, -, -, rfl⟩ | ⟨-, hs, -, rfl⟩ |
    ⟨-, _, i, rest, -, -, hexec⟩ | ⟨-, _, i, rest, -, -, rfl⟩ := step_cases h
  case inl => simp [hreset, noReset] at hno
  case inr.inl =>
    obtain ⟨-, es, htr, -⟩ := eventStep_cs_tr cmd i (setHost hs s)
    exact ⟨es, htr.symm⟩
  case inr.inr.inl => exact ⟨[], List.append_nil _⟩
  case inr.inr.inr.inl =>
    rw [eq_afterCommand_of_exec hexec, afterCommand_tr]
    exact ⟨_, rfl⟩
  case inr.inr.inr.inr =>
    rw [acceptCommand_tr]
    exact ⟨[], List.append_nil _⟩

/-- No mutation writes bit 3 or bit 7 (R22, R26). -/
theorem getLsbD_changeCs_three_or_seven (c : Byte) (ch : CsChange) {k : Nat} (hk : k = 3 ∨ k = 7) :
    (changeCs c ch).getLsbD k = c.getLsbD k := by
  cases ch with
  | keep => rfl
  | decoding m => rw [changeCs, getLsbD_setdec, if_neg (by omega), if_neg (by omega)]
  | digit a => rw [changeCs, getLsbD_setdigit, if_neg (by omega)]
  | operating => rw [changeCs, getLsbD_setOperating, if_neg (by omega)]
  | shutdown => rw [changeCs, getLsbD_setShutdown, if_neg (by omega)]

theorem csBank_csDc_changeCs (c : Byte) (ch : CsChange) :
    csBank (changeCs c ch) = csBank c ∧ csDc (changeCs c ch) = csDc c :=
  ⟨getLsbD_changeCs_three_or_seven c ch (.inl rfl), getLsbD_changeCs_three_or_seven c ch (.inr rfl)⟩

end Sys2Proof.Machine

namespace Sys2Proof.Proofs

open Sys2Proof.Machine Sys2Proof.Safety

/-- Settles O7: the step takes the word from the host and runs what it decodes to. -/
theorem stepAtIdleRunsThePresentedWord : Obligations.StepAtIdleRunsThePresentedWord :=
  fun _ _ _ _ => step_issue_of_idle

/-- Settles O8: `withFetchWord` puts the decoded word at the head of the host's list at an idle
sequencer. -/
theorem placedTableWordRunsNext : Obligations.PlacedTableWordRunsNext := by
  intro s nbits w i h
  unfold decodeTableWord at h
  split at h
  case h_1 => cases h
  case h_2 c hword =>
    split at h
    case h_2 => cases h
    case h_1 j hdecode =>
      cases h
      rw [State.withFetchWord, hword]
      exact step_issue_of_idle rfl rfl hdecode

/-- Settles O9: both granularities decode the word first and refuse it when that fails; the all-zero
word has the operation code 0. -/
theorem illegalWordIsRefusedByName : Obligations.IllegalWordIsRefusedByName :=
  ⟨fun _ _ _ _ => step_of_illegal, rfl⟩

/-- Settles O10: `exec` is the run of the instruction's transactions, and a step either answers next or
is the refusal of an ILLEGAL word at IDLE (`step_next_or_refused`). -/
theorem everyOperationIsTotalAndOnlyIllegalWordsRefuse :
    Obligations.EveryOperationIsTotalAndOnlyIllegalWordsRefuse := by
  refine ⟨fun i s => ?total, fun s f => ?noFault, fun s r hr => ?refused⟩
  case total =>
    refine ⟨_, exec_eq_afterCommand i s, ⟨_, rfl⟩, ?_, fun hi => ?_⟩
    · rintro rfl
      rfl
    · rw [afterCommand_responses, delivered_eq_nil hi, List.append_nil]
  case noFault => cases f
  case refused =>
    obtain ⟨t, ht⟩ | ⟨hidle, why, w, rest, hstep, hdecode, hhost⟩ := step_next_or_refused s
    · rw [ht] at hr
      cases hr
    · rw [hstep] at hr
      cases hr
      exact ⟨hidle, why, w, rest, rfl, hdecode, hhost⟩

/-- Settles O12: at IDLE the step hands back the state, less the pass the host let go by. -/
theorem idleSequencerWithNothingPresentedStays : Obligations.IdleSequencerWithNothingPresentedStays := by
  refine ⟨fun s hidle hhost => ?nothing, fun s rest hidle hhost => ?pass⟩
  case nothing => simp [step, hidle, hhost]
  case pass => simp [step, hidle, hhost, setHost]

/-- Settles O13: acceptance at IDLE (`step_start_of_idle`), by whether the instruction has events. -/
theorem acceptanceStartsAtEventZero : Obligations.AcceptanceStartsAtEventZero := by
  intro s c i rest hidle hhost hdecode
  have hstep := step_start_of_idle hidle hhost hdecode
  refine ⟨fun hi => ⟨eventCount_pos_of_ne_decodeType hi, ?_⟩, ?_⟩
  · rw [hstep, acceptCommand_of_ne_decodeType hi]
    rfl
  · rintro rfl
    exact ⟨rfl, hstep⟩

/-- Settles O45: reset wins over whatever SEQ holds. -/
theorem resetAbandonsWhateverRuns : Obligations.ResetAbandonsWhateverRuns :=
  fun _ _ => step_reset

/-- Settles O48: no mutation of `CS` writes the two bits, and a step changes `CS` by mutations only. -/
theorem noStepWritesBankOrDataComing : Obligations.NoStepWritesBankOrDataComing := by
  intro s t hno h
  refine cs_induction_of_step (P := fun c => csBank c = csBank s.cs ∧ csDc c = csDc s.cs)
    ?_ hno ⟨rfl, rfl⟩ h
  rintro c ch ⟨hbank, hdc⟩
  obtain ⟨hbank', hdc'⟩ := csBank_csDc_changeCs c ch
  exact ⟨hbank'.trans hbank, hdc'.trans hdc⟩

/-- Settles O53: `tr_append_of_step`; a reset takes the empty trace; while a command runs the step is an
event step, which appends one event at most. -/
theorem traceIsAppendOnly : Obligations.TraceIsAppendOnly := by
  refine fun s t h => ⟨fun hno => tr_append_of_step hno h, fun hreset => ?reset, fun hno hbusy => ?busy⟩
  case reset =>
    obtain ⟨rest, hhost⟩ := noReset_eq_false_iff.mp hreset
    rw [step_reset hhost] at h
    cases h
    rfl
  case busy =>
    cases hseq : s.seq with
    | idle => exact absurd hseq hbusy
    | run cmd i =>
      obtain ⟨hs, rfl⟩ := eq_eventStep_of_step hseq hno h
      obtain ⟨-, es, htr, hlen⟩ := eventStep_cs_tr cmd i (setHost hs s)
      rw [htr, List.length_append, setHost_tr]
      omega

end Sys2Proof.Proofs
end

section
/-! PROOFS. The invariant of a safe run (10_state.md, 20_memory.md R51 to R53): it holds at reset, every
step keeps it, and what it says of the strobe, the lines and the trace. -/

namespace Sys2Proof.Machine

open Sys2Proof.Safety

/-! ## The reset value of `CS` -/

/-- Bank A, all else clear but bit 7, which is OPEN (R36). -/
theorem reset_cs_eq : State.reset.cs = if Config.dcReset then 0x88#8 else 0x08#8 := by
  unfold State.reset
  cases Config.dcReset <;> rfl

theorem reset_fields : csDigit State.reset.cs = 0#3 ∧ csBank State.reset.cs = true ∧
    csSd State.reset.cs = false ∧ csNd State.reset.cs = false ∧ csHex State.reset.cs = false ∧
    csDc State.reset.cs = Config.dcReset := by
  rw [reset_cs_eq]
  cases Config.dcReset <;> decide

end Sys2Proof.Machine

namespace Sys2Proof.Safety

open Sys2Proof.Machine

/-! ## `CS` -/

theorem chipStateLegal_reset : ChipStateLegal State.reset.cs := by
  obtain ⟨-, hbank, -, -, hhex, hdc⟩ := reset_fields
  refine ⟨hbank, hdc, fun h => ?_⟩
  rw [hhex] at h
  exact Bool.false_ne_true h.1

/-- Every mutation keeps `CS` legal: only SET_DECODING's writes bits 6 and 5, and never `0b11` (R97). -/
theorem chipStateLegal_changeCs (c : Byte) (ch : CsChange) (h : ChipStateLegal c) :
    ChipStateLegal (changeCs c ch) := by
  obtain ⟨hbank, hdc, hmode⟩ := h
  obtain ⟨hbank', hdc'⟩ := csBank_csDc_changeCs c ch
  refine ⟨hbank'.trans hbank, hdc'.trans hdc, ?_⟩
  cases ch with
  | keep => exact hmode
  | decoding m => exact not_csHex_and_csNd_setdec c m
  | digit a => rwa [changeCs, csHex, csNd, getLsbD_setdigit, getLsbD_setdigit]
  | operating => rwa [changeCs, csHex, csNd, getLsbD_setOperating, getLsbD_setOperating]
  | shutdown => rwa [changeCs, csHex, csNd, getLsbD_setShutdown, getLsbD_setShutdown]

/-! ## The transaction in progress -/

theorem inProgress_of_idle {s : State} (hidle : s.seq = .idle) : inProgress s = [] := by
  simp [inProgress, hidle]

theorem inProgress_of_run {s : State} {cmd : Instr} {i : Nat} {part : Part} (hseq : s.seq = .run cmd i)
    (hpart : (parts cmd)[i / 6]? = some part) :
    inProgress s = (transaction part.level (carriedByte s.cs part.carried)).take (i % 6) := by
  simp [inProgress, hseq, hpart]

/-- Between two transactions of a command none is in progress. -/
theorem inProgress_of_boundary {s : State} {cmd : Instr} {i : Nat} (hseq : s.seq = .run cmd i)
    (hi : i % 6 = 0) : inProgress s = [] := by
  cases hpart : (parts cmd)[i / 6]? with
  | none => simp [inProgress, hseq, hpart]
  | some part => rw [inProgress_of_run hseq hpart, hi, List.take_zero]

/-- The events performed before event `i` are the first `i mod 6` of the transaction as event `i` sees
it: its mutation, if still to come, is before all of them. -/
theorem inProgress_eq_take_chipStateAt {s : State} {cmd : Instr} {i : Nat} {part : Part}
    (hseq : s.seq = .run cmd i) (hpart : (parts cmd)[i / 6]? = some part) :
    inProgress s =
      (transaction part.level (carriedByte (chipStateAt part i s.cs) part.carried)).take (i % 6) := by
  rw [inProgress_of_run hseq hpart, chipStateAt]
  split_ifs with h0
  · rw [h0, List.take_zero, List.take_zero]
  · rfl

/-- After the last event of a transaction none is in progress. -/
theorem inProgress_of_last {t : State} {cmd : Instr} {i : Nat} (hseq : t.seq = nextSeq cmd i)
    (h5 : i % 6 = 5) : inProgress t = [] := by
  unfold nextSeq at hseq
  split at hseq
  · exact inProgress_of_boundary hseq (by omega)
  · exact inProgress_of_idle hseq

/-- After an earlier event one more event of the transaction is performed. -/
theorem inProgress_of_not_last {t : State} {cmd : Instr} {i : Nat} {part : Part}
    (hi : i < eventCount cmd) (hseq : t.seq = nextSeq cmd i) (hpart : (parts cmd)[i / 6]? = some part)
    (h5 : i % 6 ≠ 5) :
    inProgress t = (transaction part.level (carriedByte t.cs part.carried)).take (i % 6 + 1) := by
  have hnext : i + 1 < eventCount cmd := by
    unfold eventCount at hi ⊢
    omega
  rw [nextSeq, if_pos hnext] at hseq
  have hdiv : (i + 1) / 6 = i / 6 := by omega
  have hmod : (i + 1) % 6 = i % 6 + 1 := by omega
  rw [inProgress_of_run hseq (hdiv ▸ hpart), hmod]

/-! ## The invariant, step by step -/

theorem safeState_reset : SafeState State.reset :=
  ⟨chipStateLegal_reset, trivial, ⟨[], rfl⟩, rfl⟩

/-- The invariant does not speak of the host or of the responses. -/
theorem SafeState.congr {s t : State} (h : SafeState s) (hcs : t.cs = s.cs) (hlines : t.lines = s.lines)
    (htr : t.tr = s.tr) (hseq : t.seq = s.seq) : SafeState t := by
  obtain ⟨cs, lines, tr, seq, responses, host⟩ := t
  obtain rfl : cs = s.cs := hcs
  obtain rfl : lines = s.lines := hlines
  obtain rfl : tr = s.tr := htr
  obtain rfl : seq = s.seq := hseq
  exact ⟨h.chipState, h.pointer, h.trace, h.lines⟩

/-- Appending events to the trace and folding them into the latches keeps the two together (R42). -/
theorem LinesFollowTrace.append {s t : State} (h : LinesFollowTrace s) {es : List Event}
    (htr : t.tr = s.tr ++ es) (hlines : t.lines = es.foldl applyEvent s.lines) : LinesFollowTrace t := by
  rw [LinesFollowTrace, htr, hlines, List.foldl_append, ← h]

/-- One event more is one event more of the transaction in progress, and after the sixth a whole one
(R51, R53). -/
theorem traceAtPointer_eventStep {s : State} {cmd : Instr} {i : Nat} (hseq : s.seq = .run cmd i)
    (hi : i < eventCount cmd) (h : TraceAtPointer s) : TraceAtPointer (eventStep cmd i s) := by
  obtain ⟨txs, htr⟩ := h
  obtain ⟨part, e, hpart, he, hstep⟩ := eventStep_of_index hi s
  have hcs : (eventStep cmd i s).cs = chipStateAt part i s.cs := by rw [hstep]
  have hnext : (eventStep cmd i s).seq = nextSeq cmd i := by rw [hstep]
  have htr' : (eventStep cmd i s).tr = transactions txs ++
      (transaction part.level (carriedByte (chipStateAt part i s.cs) part.carried)).take (i % 6 + 1) := by
    rw [hstep, htr, inProgress_eq_take_chipStateAt hseq hpart, List.take_add_one, he,
      List.append_assoc, Option.toList_some]
  by_cases h5 : i % 6 = 5
  · refine ⟨txs ++ [(part.level, carriedByte (chipStateAt part i s.cs) part.carried)], ?_⟩
    rw [htr', inProgress_of_last hnext h5, List.append_nil, transactions_append,
      transactions_singleton, h5]
    rfl
  · exact ⟨txs, by rw [htr', inProgress_of_not_last hi hnext hpart h5, hcs]⟩

theorem safeState_eventStep {s : State} {cmd : Instr} {i : Nat} (hseq : s.seq = .run cmd i)
    (h : SafeState s) : SafeState (eventStep cmd i s) := by
  have hi : i < eventCount cmd := by
    have hpointer := h.pointer
    rwa [hseq] at hpointer
  have htrace := traceAtPointer_eventStep hseq hi h.trace
  obtain ⟨part, e, -, -, hstep⟩ := eventStep_of_index hi s
  rw [hstep] at htrace ⊢
  refine ⟨?chipState, ?pointer, htrace, h.lines.append (es := [e]) rfl rfl⟩
  case chipState =>
    simp only [chipStateAt]
    split_ifs
    · exact chipStateLegal_changeCs s.cs part.change h.chipState
    · exact h.chipState
  case pointer =>
    simp only [nextSeq]
    split_ifs with hnext
    · exact hnext
    · trivial

/-- A whole command appends whole transactions at IDLE. -/
theorem safeState_afterCommand {s : State} (hidle : s.seq = .idle) (h : SafeState s) (i : Instr) :
    SafeState (afterCommand i s) := by
  obtain ⟨txs, htr⟩ := h.trace
  rw [inProgress_of_idle hidle, List.append_nil] at htr
  have hidle' : (afterCommand i s).seq = .idle := hidle
  refine ⟨chipStateAfter_induction chipStateLegal_changeCs h.chipState (parts i), ?pointer,
    ⟨txs ++ transactionsOf s.cs (parts i), ?trace⟩,
    h.lines.append (afterCommand_tr i s) (afterCommand_lines i s)⟩
  case pointer =>
    rw [hidle']
    trivial
  case trace =>
    rw [afterCommand_tr, htr, inProgress_of_idle hidle', transactions_append, List.append_nil]

/-- Accepting a command performs no event (R32). -/
theorem safeState_acceptCommand {s : State} (hidle : s.seq = .idle) (h : SafeState s) (i : Instr) :
    SafeState (acceptCommand i s) := by
  by_cases hi : i = .decodeType
  · subst hi
    exact h.congr rfl rfl rfl rfl
  · obtain ⟨txs, htr⟩ := h.trace
    rw [acceptCommand_of_ne_decodeType hi]
    refine ⟨h.chipState, eventCount_pos_of_ne_decodeType hi, ⟨txs, ?_⟩, h.lines⟩
    rw [setSeq_tr, htr, inProgress_of_idle hidle, inProgress_of_boundary (setSeq_seq ..) rfl]

theorem safeState_setHost {s : State} (h : SafeState s) (hs : List HostAct) :
    SafeState (setHost hs s) :=
  h.congr rfl rfl rfl rfl

theorem safeState_of_step {s t : State} (h : SafeState s) (hstep : step s = .next t) : SafeState t := by
  obtain ⟨rest, -, rfl⟩ | ⟨cmd, i, hs, hseq, -, rfl⟩ | ⟨-, hs, -, rfl⟩ |
    ⟨hidle, _, i, rest, -, -, hexec⟩ | ⟨hidle, _, i, rest, -, -, rfl⟩ := step_cases hstep
  case inl => exact safeState_setHost safeState_reset rest
  case inr.inl => exact safeState_eventStep hseq (safeState_setHost h hs)
  case inr.inr.inl => exact safeState_setHost h hs
  case inr.inr.inr.inl =>
    rw [eq_afterCommand_of_exec hexec]
    exact safeState_afterCommand (s := setHost rest s) hidle (safeState_setHost h rest) i
  case inr.inr.inr.inr =>
    exact safeState_acceptCommand (s := setHost rest s) hidle (safeState_setHost h rest) i

/-! ## The strobe in a safe run -/

/-- After `k < 6` events of a transaction the strobe is low exactly when `k` is 4 or 5 (R102). -/
theorem wr_foldl_take_transaction (m : Level) (b : Byte) {k : Nat} (hk : k < 6) {l : Lines}
    (hl : l.wr = true) :
    (((transaction m b).take k).foldl applyEvent l).wr = false ↔ k = 4 ∨ k = 5 := by
  interval_cases k <;> simp [transaction, hl]

/-- In a safe run the level of the strobe is that of the transaction in progress. -/
theorem SafeState.wr_eq {s : State} (h : SafeState s) :
    ∃ l : Lines, l.wr = true ∧ s.lines.wr = ((inProgress s).foldl applyEvent l).wr := by
  obtain ⟨txs, htr⟩ := h.trace
  refine ⟨_, wr_foldl_transactions (l := Lines.reset) rfl txs, ?_⟩
  rw [← List.foldl_append, ← htr, ← h.lines]

theorem SafeState.wr_of_idle {s : State} (h : SafeState s) (hidle : s.seq = .idle) :
    s.lines.wr = true := by
  obtain ⟨l, hl, hwr⟩ := h.wr_eq
  rw [hwr, inProgress_of_idle hidle]
  exact hl

theorem SafeState.wr_of_run {s : State} (h : SafeState s) {cmd : Instr} {i : Nat}
    (hseq : s.seq = .run cmd i) :
    i < eventCount cmd ∧ (s.lines.wr = false ↔ i % 6 = 4 ∨ i % 6 = 5) := by
  have hi : i < eventCount cmd := by
    have hpointer := h.pointer
    rwa [hseq] at hpointer
  obtain ⟨part, hpart⟩ := part_of_index hi
  obtain ⟨l, hl, hwr⟩ := h.wr_eq
  rw [hwr, inProgress_of_run hseq hpart]
  exact ⟨hi, wr_foldl_take_transaction _ _ (Nat.mod_lt _ (by decide)) hl⟩

/-- The last two events of a transaction are a delay and the strobe's rise (R102). -/
theorem applyEvent_of_strobe_low {m : Level} {b : Byte} {k : Nat} {e : Event} (hk : k = 4 ∨ k = 5)
    (he : (transaction m b)[k]? = some e) (l : Lines) :
    (applyEvent l e).mode = l.mode ∧ (applyEvent l e).portLo = l.portLo ∧
      (applyEvent l e).portHi = l.portHi := by
  obtain rfl | rfl := hk <;> cases he <;> exact ⟨rfl, rfl, rfl⟩

end Sys2Proof.Safety

namespace Sys2Proof.Proofs

open Sys2Proof.Machine Sys2Proof.Safety

/-- Settles O43: the fields of `reset_fields`, the value of `reset_cs_eq`, and the record's own rows. -/
theorem resetLeavesTheTabulatedState : Obligations.ResetLeavesTheTabulatedState := by
  obtain ⟨hdigit, hbank, hsd, hnd, hhex, hdc⟩ := reset_fields
  exact ⟨hdigit, hbank, hsd, hnd, hhex, hdc, reset_cs_eq, decodeModeOf_reset, rfl, rfl, rfl, rfl, rfl,
    rfl⟩

/-- Settles O46: `CS` is legal at reset, and no event has been performed. -/
theorem safeRunHoldsAtReset : Obligations.SafeRunHoldsAtReset := safeState_reset

/-- Settles O47: by what the step does: a reset, one event more, nothing, whole transactions, or an
acceptance. -/
theorem everyStepKeepsTheSafeRun : Obligations.EveryStepKeepsTheSafeRun :=
  fun _ _ => safeState_of_step

/-- Settles O49: whole transactions leave the strobe high, so its level is that of the begun one. -/
theorem strobeIsLowOnlyInsideATransaction : Obligations.StrobeIsLowOnlyInsideATransaction := by
  refine fun s h => ⟨⟨fun hlow => ?low, ?inside⟩, h.wr_of_idle⟩
  case low =>
    cases hseq : s.seq with
    | idle => exact absurd (h.wr_of_idle hseq) (by simp [hlow])
    | run cmd i => exact ⟨cmd, i, rfl, (h.wr_of_run hseq).2.mp hlow⟩
  case inside =>
    rintro ⟨cmd, i, hseq, hi⟩
    exact (h.wr_of_run hseq).2.mpr hi

/-- Settles O50: with the strobe low the next event is the transaction's fifth or sixth. -/
theorem linesAreStableWhileTheStrobeIsLow : Obligations.LinesAreStableWhileTheStrobeIsLow := by
  intro s t h hlow hno hstep
  cases hseq : s.seq with
  | idle => exact absurd (h.wr_of_idle hseq) (by simp [hlow])
  | run cmd i =>
    obtain ⟨hi, hwr⟩ := h.wr_of_run hseq
    obtain ⟨hs, rfl⟩ := eq_eventStep_of_step hseq hno hstep
    obtain ⟨part, e, -, he, hevent⟩ := eventStep_of_index hi (setHost hs s)
    rw [hevent]
    exact applyEvent_of_strobe_low (hwr.mp hlow) he s.lines

/-- Settles O52: at IDLE no transaction is in progress, and the view reads whole ones back. -/
theorem idleTraceIsWholeTransactions : Obligations.IdleTraceIsWholeTransactions := by
  intro s h hidle
  obtain ⟨txs, htr⟩ := h.trace
  rw [inProgress_of_idle hidle, List.append_nil] at htr
  exact ⟨txs, htr ▸ txView_transactions txs, htr⟩

end Sys2Proof.Proofs
end

section
/-! PROOFS. The setters as writes of disjoint fields of `CS` (41_power.md, 43_state_setters.md R100):
what each keeps, two of them in a row, and the control word each sends (R96). -/

namespace Sys2Proof.Machine

open Sys2Proof.Safety

/-! ## Writes of a field -/

/-- `f` writes every bit of `field`, whatever was there, and keeps every other bit. -/
def Writes (field : Nat → Bool) (f : Byte → Byte) : Prop :=
  ∃ bits : Nat → Bool, ∀ c k, (f c).getLsbD k = if field k then bits k else c.getLsbD k

theorem writes_setOperating : Writes (fun k => k == 4) setOperating :=
  ⟨fun _ => true, fun c k => by simp [getLsbD_setOperating]⟩

theorem writes_setShutdown : Writes (fun k => k == 4) setShutdown :=
  ⟨fun _ => false, fun c k => by simp only [getLsbD_setShutdown, beq_iff_eq]⟩

theorem writes_setdec (m : ModeOperand) : Writes (fun k => k == 5 || k == 6) (setdec · m) := by
  refine ⟨(setdec 0#8 m).getLsbD, fun c k => ?_⟩
  simp only [getLsbD_setdec]
  grind

theorem writes_setdigit (a : Byte) : Writes (fun k => decide (k < 3)) (setdigit · a) :=
  ⟨a.getLsbD, fun c k => by simp only [getLsbD_setdigit, decide_eq_true_eq]⟩

theorem Writes.getLsbD_of_not_field {field : Nat → Bool} {f : Byte → Byte} (hf : Writes field f)
    (c : Byte) {k : Nat} (hk : field k = false) : (f c).getLsbD k = c.getLsbD k := by
  obtain ⟨bits, hbits⟩ := hf
  rw [hbits, hk, if_neg Bool.false_ne_true]

/-- Of two writes of one field the second alone counts. -/
theorem Writes.absorb {field : Nat → Bool} {f g : Byte → Byte} (hf : Writes field f) (hg : Writes field g)
    (c : Byte) : g (f c) = g c := by
  obtain ⟨fbits, hf⟩ := hf
  obtain ⟨gbits, hg⟩ := hg
  refine BitVec.eq_of_getLsbD_eq fun k _ => ?_
  simp only [hg, hf]
  split_ifs <;> rfl

/-- Writes of disjoint fields commute. -/
theorem Writes.comm {F G : Nat → Bool} {f g : Byte → Byte} (hf : Writes F f) (hg : Writes G g)
    (hdisjoint : ∀ k, ¬(F k = true ∧ G k = true)) (c : Byte) : g (f c) = f (g c) := by
  obtain ⟨fbits, hf⟩ := hf
  obtain ⟨gbits, hg⟩ := hg
  refine BitVec.eq_of_getLsbD_eq fun k _ => ?_
  simp only [hg, hf]
  split_ifs with hG hF
  · exact absurd ⟨hF, hG⟩ (hdisjoint k)
  · rfl
  · rfl
  · rfl

/-- Each setter writes its own field and pushes the result (R90, R91, R96, R97, R99). -/
theorem exec_setter_writes {i : Instr} {field : Nat → Bool}
    (hi : ((i = .turnOn ∨ i = .turnOff) ∧ field = (fun k => k == 4)) ∨
      ((∃ m, i = .setDecoding m) ∧ field = (fun k => k == 5 || k == 6)) ∨
      ((∃ a, i = .setDigit a) ∧ field = (fun k => decide (k < 3)))) :
    ∃ f, Writes field f ∧ ∀ s, exec i s = .next (pushChipState (f s.cs) s) := by
  obtain ⟨rfl | rfl, rfl⟩ | ⟨⟨m, rfl⟩, rfl⟩ | ⟨⟨a, rfl⟩, rfl⟩ := hi
  · exact ⟨_, writes_setOperating, exec_turnOn⟩
  · exact ⟨_, writes_setShutdown, exec_turnOff⟩
  · exact ⟨_, writes_setdec m, exec_setDecoding m⟩
  · exact ⟨_, writes_setdigit a, exec_setDigit a⟩

/-! ## The pushes of setters -/

theorem pushChipState_lines_eq_linesAfter (c : Byte) (s : State) :
    (pushChipState c s).lines = linesAfter true c :=
  busWrite_lines_eq_linesAfter true c (writeCs c s)

/-- Two pushes append two control words, each the `CS` of its moment (R96). -/
theorem pushChipState_twice_tr (c d : Byte) (s : State) :
    (pushChipState d (pushChipState c s)).tr = s.tr ++ transactions [(true, c), (true, d)] := by
  simp [transactions, transaction_eq]

/-- Setters of disjoint fields end in the same `CS`, and in either order each pushes the `CS` of its
moment (R100). -/
theorem setters_comm {i j : Instr} {f g : Byte → Byte} {F G : Nat → Bool} (hf : Writes F f)
    (hg : Writes G g) (hdisjoint : ∀ k, ¬(F k = true ∧ G k = true))
    (hi : ∀ s, exec i s = .next (pushChipState (f s.cs) s))
    (hj : ∀ s, exec j s = .next (pushChipState (g s.cs) s)) {s s1 s2 t1 t2 : State}
    (hs1 : exec i s = .next s1) (hs2 : exec j s1 = .next s2) (ht1 : exec j s = .next t1)
    (ht2 : exec i t1 = .next t2) :
    s2.cs = t2.cs ∧ s2.tr = s.tr ++ transactions [(true, s1.cs), (true, s2.cs)] ∧
      t2.tr = s.tr ++ transactions [(true, t1.cs), (true, s2.cs)] := by
  rw [hi] at hs1 ht2
  rw [hj] at hs2 ht1
  cases hs1
  cases hs2
  cases ht1
  cases ht2
  have hcomm : g (f s.cs) = f (g s.cs) := hf.comm hg hdisjoint s.cs
  refine ⟨hcomm, pushChipState_twice_tr .., ?_⟩
  simp only [pushChipState_cs, hcomm]
  exact pushChipState_twice_tr ..

/-- A setter adds the one control word of the `CS` it leaves to the transaction view (R96). -/
theorem txView_setter {i : Instr} {s t : State} {txs : List (Level × Byte)}
    (hi : i = .turnOn ∨ i = .turnOff ∨ (∃ m, i = .setDecoding m) ∨ ∃ a, i = .setDigit a)
    (h : txView s.tr = some txs) (ht : exec i s = .next t) :
    txView t.tr = some (txs ++ [(true, t.cs)]) := by
  obtain ⟨c, hc⟩ := exec_setter_eq_pushChipState s hi
  rw [hc] at ht
  cases ht
  rw [pushChipState_tr_eq_transaction, ← transactions_singleton]
  exact txView_append_transactions h _

end Sys2Proof.Machine

namespace Sys2Proof.Proofs

open Sys2Proof.Machine Sys2Proof.Safety

/-- Settles O26: each setter is a write of its field and a push. -/
theorem settersChangeOnlyTheirField : Obligations.SettersChangeOnlyTheirField := by
  intro i field s t hi ht
  obtain ⟨f, hf, hrun⟩ := exec_setter_writes hi
  rw [hrun] at ht
  cases ht
  exact ⟨fun k hk => hf.getLsbD_of_not_field s.cs hk, rfl, rfl, rfl,
    pushChipState_tr_eq_transaction (f s.cs) s, pushChipState_lines_eq_linesAfter (f s.cs) s⟩

/-- Settles O37: the pair writes one bit, so the later write counts alone and from CS[4] = 0 gives `CS`
back; bits 6 and 5 are outside the field. -/
theorem powerPairLaws : Obligations.PowerPairLaws := by
  refine ⟨fun s t u hoff ht hu => ?restores, fun s t u ht hu => ?mode,
    fun i s t u hi ht hu => ?idempotent⟩
  case restores =>
    rw [exec_turnOn] at ht
    rw [exec_turnOff] at hu
    cases ht
    cases hu
    obtain ⟨-, hunchanged, -⟩ := csSd_write_laws (getLsbD_setShutdown s.cs)
    have hback : setShutdown (setOperating s.cs) = s.cs :=
      (writes_setOperating.absorb writes_setShutdown s.cs).trans (hunchanged hoff)
    refine ⟨hback, getLsbD_setOperating s.cs 4, ?_⟩
    rw [pushChipState_twice_tr, pushChipState_cs, hback, setOperating]
  case mode =>
    rw [exec_turnOn] at ht
    rw [exec_turnOff] at hu
    cases ht
    cases hu
    simp only [pushChipState_cs, decodeModeOf_eq, getLsbD_setOperating, getLsbD_setShutdown]
    exact ⟨rfl, rfl⟩
  case idempotent =>
    obtain ⟨f, hf, hrun⟩ := exec_setter_writes (field := fun k => k == 4) (.inl ⟨hi, rfl⟩)
    obtain ⟨hcs, htr⟩ := setter_twice hrun (hf.absorb hf) ht hu
    rw [hrun] at ht
    cases ht
    exact ⟨hcs, htr⟩

/-- Settles O38: the three pairs write disjoint fields (`Writes.comm`). -/
theorem settersOfDifferentFieldsCommuteOnChipState :
    Obligations.SettersOfDifferentFieldsCommuteOnChipState := by
  intro i j s s1 s2 t1 t2 hpair
  obtain ⟨⟨m, rfl⟩, a, rfl⟩ | ⟨⟨m, rfl⟩, hj⟩ | ⟨⟨a, rfl⟩, hj⟩ := hpair
  · exact setters_comm (writes_setdec m) (writes_setdigit a) (fun k => by grind) (exec_setDecoding m)
      (exec_setDigit a)
  · obtain ⟨g, hg, hrun⟩ := exec_setter_writes (.inl ⟨hj, rfl⟩)
    exact setters_comm (writes_setdec m) hg (fun k => by grind) (exec_setDecoding m) hrun
  · obtain ⟨g, hg, hrun⟩ := exec_setter_writes (.inl ⟨hj, rfl⟩)
    exact setters_comm (writes_setdigit a) hg (fun k => by grind) (exec_setDigit a) hrun

/-- Settles O41: a setter's push is one transaction, so one more entry of the view (`txView_setter`). -/
theorem settersPushTheWholeChipStateOnce : Obligations.SettersPushTheWholeChipStateOnce :=
  fun _ _ _ _ => txView_setter

end Sys2Proof.Proofs
end

section
/-! PROOFS. What each instruction keeps and adds (R28, R29, R47, R95): the frames of UPDATE_DIGIT, the
query and the raw transactions, the decode mode, the transaction counts, and UPDATE_DIGIT's data byte by
its mode operand. -/

namespace Sys2Proof.Machine

open Sys2Proof.Safety

/-! ## Raw transactions -/

/-- A raw instruction is one transaction of its own byte, with no mutation of `CS` (R103, R104). -/
theorem parts_of_isRaw {i : Instr} (hi : i.isRaw = true) :
    ∃ m b, parts i = [⟨.keep, m, .given b⟩] := by
  cases i with
  | ctrlXact | dataXact | busCtrl | busData => exact ⟨_, _, rfl⟩
  | _ => cases hi

theorem exec_of_parts_eq_given {i : Instr} {m : Level} {b : Byte} (hi : parts i = [⟨.keep, m, .given b⟩])
    (s : State) : exec i s = .next (afterTransaction m b s) := by
  rw [exec_eq_afterCommand, afterCommand_of_parts_eq_singleton hi, busWrite_eq_afterTransaction]
  rfl

/-- A bus word of a byte's own fields carries that byte (R60, R62). -/
theorem exec_busCtrl_fields (b : Byte) (s : State) :
    exec (.busCtrl (csDc b) (csHex b) (csNd b) (csSd b) (csBank b) (csDigit b)) s =
      .next (afterTransaction true b s) :=
  exec_of_parts_eq_given (by rw [parts, packControl_fields]) s

theorem exec_busData_fields (b : Byte) (s : State) :
    exec (.busData (b.getLsbD 7) (b.extractLsb' 0 7)) s = .next (afterTransaction false b s) :=
  exec_of_parts_eq_given (by rw [parts, packData_fields]) s

/-! ## The decode mode -/

/-- No instruction but SET_DECODING and UPDATE_DIGIT writes bits 6 and 5 (R29). -/
theorem csHex_csNd_chipStateAfter {i : Instr} (hdec : ∀ m, i ≠ .setDecoding m)
    (hupd : ∀ a m v p, i ≠ .updateDigit a m v p) (c : Byte) :
    csHex (chipStateAfter c (parts i)) = csHex c ∧ csNd (chipStateAfter c (parts i)) = csNd c := by
  cases i with
  | updateDigit a m v p => exact absurd rfl (hupd a m v p)
  | setDecoding m => exact absurd rfl (hdec m)
  | turnOn => exact ⟨getLsbD_setOperating c 6, getLsbD_setOperating c 5⟩
  | turnOff => exact ⟨getLsbD_setShutdown c 6, getLsbD_setShutdown c 5⟩
  | setDigit a => exact ⟨getLsbD_setdigit c a 6, getLsbD_setdigit c a 5⟩
  | decodeType | ctrlXact | dataXact | busCtrl | busData => exact ⟨rfl, rfl⟩

theorem decodeModeOf_congr {c d : Byte} (hhex : csHex c = csHex d) (hnd : csNd c = csNd d) :
    decodeModeOf c = decodeModeOf d := by
  rw [decodeModeOf_eq, decodeModeOf_eq]
  unfold csHex at hhex
  unfold csNd at hnd
  rw [hhex, hnd]

theorem responseCode_ne_three (d : DecodeMode) : responseCode d ≠ 3#2 := by
  cases d <;> decide

/-! ## The transaction counts -/

theorem map_level_parts (i : Instr) : (parts i).map Part.level = transactionKinds i := by
  cases i <;> rfl

/-! ## The data transaction of UPDATE_DIGIT -/

/-- The mode that step (c) reads is the operand's, the unrecognised one as NoDecoding (R81, R98). -/
theorem decodeModeOf_setdigit_setdec (c a : Byte) (m : ModeOperand) :
    decodeModeOf (setdigit (setdec c m) a) = effectiveMode m := by
  have hmode : decodeModeOf (setdigit (setdec c m) a) = decodeModeOf (setdec c m) :=
    decodeModeOf_congr (getLsbD_setdigit _ a 6) (getLsbD_setdigit _ a 5)
  rw [hmode, decodeModeOf_setdec]

/-- UPDATE_DIGIT ends with the latches at the data byte of its mode operand (R80, R82). -/
theorem lines_of_updateDigit {a : Byte} {m : ModeOperand} {v : Byte} {p : Bool} {s t : State}
    (h : exec (.updateDigit a m v p) s = .next t) :
    t.lines = linesAfter false (databyte (effectiveMode m) v p) := by
  rw [exec_updateDigit_eq_transactions a m v p s _ _ _ rfl rfl rfl, decodeModeOf_setdigit_setdec] at h
  cases h
  rfl

/-- The point has no effect on a value with bit 7 set (R142). -/
theorem or_point_of_getLsbD_seven {v : Byte} (hv : v.getLsbD 7 = true) (p : Bool) :
    v ||| (if p then 0#8 else 0x80#8) = v := by
  revert v
  cases p <;> decide

theorem and_low_eq_zero_of_low {v : Byte} (hv : low v = 0#4) : v &&& 0x0F#8 = 0#8 := by
  revert v
  decide

end Sys2Proof.Machine

namespace Sys2Proof.Proofs

open Sys2Proof.Machine Sys2Proof.Safety

/-- Settles O25: a bus word is one raw transaction; its byte is put together from its fields. -/
theorem busWordRunsAsTheTransactionThatCarriesIt :
    Obligations.BusWordRunsAsTheTransactionThatCarriesIt := by
  refine ⟨exec_busCtrl_fields, exec_busData_fields, ?decoded,
    fun _ _ _ _ _ _ => exec_of_parts_eq_given rfl, fun _ _ => exec_of_parts_eq_given rfl⟩
  case decoded =>
    intro m b i s hdecode
    cases m with
    | true =>
      cases (decode_bus_control b).symm.trans hdecode
      exact exec_busCtrl_fields b s
    | false =>
      cases (decode_bus_data b).symm.trans hdecode
      exact exec_busData_fields b s

/-- Settles O27: `exec_updateDigit_eq_transactions` gives the whole state, and its byte keeps the three
bits. -/
theorem updateDigitChangesOnlyModeAndDigit : Obligations.UpdateDigitChangesOnlyModeAndDigit := by
  intro a m v p s t ht
  obtain ⟨hbank, hsd, hdc⟩ := setdigit_setdec_keeps_bank_sd_dc s.cs a m
  rw [exec_updateDigit_eq_transactions a m v p s _ _ _ rfl rfl rfl] at ht
  cases ht
  exact ⟨hbank, hsd, hdc, rfl, rfl, rfl, _, rfl, rfl⟩

/-- Settles O28: DECODE_TYPE only delivers, and a raw instruction is its one transaction. -/
theorem queryAndRawTransactionsKeepChipState : Obligations.QueryAndRawTransactionsKeepChipState := by
  rintro i s t (rfl | hraw) ht
  · rw [exec_decodeType] at ht
    cases ht
    exact ⟨rfl, rfl, rfl, fun _ => ⟨rfl, rfl⟩, nofun⟩
  · obtain ⟨m, b, hparts⟩ := parts_of_isRaw hraw
    rw [exec_of_parts_eq_given hparts] at ht
    cases ht
    refine ⟨rfl, rfl, rfl, ?_, fun _ => ⟨rfl, m, b, hparts, rfl, rfl⟩⟩
    rintro rfl
    cases hraw

/-- Settles O31: `setdec` has one arm for the two operands, so both runs are the same; the data byte is
that of NoDecoding. -/
theorem unrecognisedModeActsAsNoDecoding : Obligations.UnrecognisedModeActsAsNoDecoding := by
  intro a v p s
  have hrun := exec_updateDigit_eq_transactions a .unrecognised v p s _ _ _ rfl rfl rfl
  refine ⟨rfl, rfl, _, hrun, ?hex, ?nd, ?lines⟩
  case hex =>
    rw [csHex, getLsbD_setdigit, getLsbD_setdec]
    rfl
  case nd =>
    rw [csNd, getLsbD_setdigit, getLsbD_setdec]
    rfl
  case lines => rw [lines_of_updateDigit hrun, effectiveMode, databyte_noDecoding]

/-- Settles O33: `decodeModeOf_setdec` for the three defined modes, and no other instruction but
UPDATE_DIGIT writes the two bits. -/
theorem decodeModeStaysUntilTheNextSetDecoding :
    Obligations.DecodeModeStaysUntilTheNextSetDecoding := by
  have hset : ∀ (m : ModeOperand) (s t : State), exec (.setDecoding m) s = .next t →
      decodeModeOf t.cs = effectiveMode m := by
    intro m s t ht
    rw [exec_setDecoding] at ht
    cases ht
    exact decodeModeOf_setdec s.cs m
  refine ⟨hset .codeB, hset .noDecoding, hset .hex, fun i s t hdec hupd ht => ?_⟩
  obtain ⟨hhex, hnd⟩ := csHex_csNd_chipStateAfter hdec hupd s.cs
  rw [eq_afterCommand_of_exec ht]
  exact ⟨decodeModeOf_congr hhex hnd, hhex, hnd⟩

/-- Settles O34: `Emit` by the event it performs. -/
theorem eachEventDrivesItsLatch : Obligations.EachEventDrivesItsLatch :=
  fun _ _ _ _ _ => ⟨rfl, rfl, rfl, rfl⟩

/-- Settles O39: the instruction between gives no response and keeps bits 6 and 5, so both queries give
the code of one mode. -/
theorem queryIsStableUntilTheModeIsSet : Obligations.QueryIsStableUntilTheModeIsSet := by
  intro i s s1 s2 s3 hdec hupd hquery h1 h2 h3
  rw [exec_decodeType] at h1 h3
  cases h1
  cases h3
  have hs2 := eq_afterCommand_of_exec h2
  subst hs2
  obtain ⟨hhex, hnd⟩ := csHex_csNd_chipStateAfter hdec hupd s.cs
  have hcode : (afterCommand i (deliver s.rspCode s)).rspCode = s.rspCode :=
    congrArg responseCode (decodeModeOf_congr hhex hnd)
  refine ⟨s.rspCode, responseCode_ne_three _, rfl, ?_⟩
  rw [deliver_responses, hcode, afterCommand_responses, delivered_eq_nil hquery, deliver_responses,
    List.append_nil, List.append_assoc, List.cons_append, List.nil_append]

/-- Settles O40: the view grows by the instruction's list of transactions, whose levels are the kinds of
R47. -/
theorem eachOperationAddsItsTransactions : Obligations.EachOperationAddsItsTransactions := by
  intro i s t txs hview ht
  rw [eq_afterCommand_of_exec ht]
  exact ⟨transactionsOf s.cs (parts i), txView_afterCommand hview i,
    (map_fst_transactionsOf s.cs (parts i)).trans (map_level_parts i)⟩

/-- Settles O42: the latches end at the data byte of the mode operand, and each hazard is that byte
computed. -/
theorem pointAndBlankHazards : Obligations.PointAndBlankHazards := by
  refine fun a v p s t => ⟨fun ht hv => ?noDecoding, fun ht => ?blank, fun ht hv hlow => ?codeZero,
    fun ht => ?hexZero⟩
  case noDecoding =>
    rw [lines_of_updateDigit ht, effectiveMode, databyte_noDecoding, or_point_of_getLsbD_seven hv]
  case blank =>
    rw [lines_of_updateDigit ht]
    cases p <;> rfl
  case codeZero =>
    rw [lines_of_updateDigit ht, effectiveMode, databyte_codeB, if_neg hv, and_low_eq_zero_of_low hlow,
      BitVec.zero_or]
  case hexZero =>
    rw [lines_of_updateDigit ht]
    cases p <;> rfl

end Sys2Proof.Proofs
end

section
/-! PROOFS. What an observer of the bus was told: the last control word against `CS` (60_exceptions.md
R116, 70_reset_and_hazards.md R145), and the display shadow (20_memory.md R52). -/

namespace Sys2Proof.Machine

open Sys2Proof.Safety

/-! ## The last control word -/

/-- An instruction that is not raw ends with `CS` as the last control word, or is DECODE_TYPE and
performs nothing (R96, R116). -/
theorem lastControl_transactionsOf {i : Instr} (hraw : i.isRaw = false) (c : Byte) :
    (transactionsOf c (parts i) = [] ∧ chipStateAfter c (parts i) = c) ∨
      lastControl (transactionsOf c (parts i)) = some (chipStateAfter c (parts i)) := by
  cases i with
  | decodeType => exact .inl ⟨rfl, rfl⟩
  | updateDigit | turnOn | turnOff | setDecoding | setDigit => exact .inr rfl
  | ctrlXact | dataXact | busCtrl | busData => cases hraw

theorem toldChipState_afterCommand {s : State} {i : Instr} (hraw : i.isRaw = false)
    (h : ToldChipState s) : ToldChipState (afterCommand i s) := by
  obtain ⟨txs, hview, htold⟩ := h
  refine ⟨_, txView_afterCommand hview i, ?_⟩
  rw [lastControl_append, afterCommand_cs]
  obtain ⟨hnone, hcs⟩ | hlast := lastControl_transactionsOf hraw s.cs
  · rw [hnone, hcs]
    exact htold
  · exact .inr (by rw [hlast, Option.some_or])

/-- A command that is accepted and leaves SEQ idle is DECODE_TYPE, which only delivers (R32). -/
theorem toldChipState_acceptCommand {s : State} {i : Instr} (hidle : (acceptCommand i s).seq = .idle)
    (h : ToldChipState s) : ToldChipState (acceptCommand i s) := by
  obtain ⟨-, haccept⟩ | ⟨-, haccept⟩ := acceptCommand_cases i s
  · rw [haccept]
    exact h
  · rw [haccept] at hidle
    cases hidle

/-! ## The display shadow -/

theorem shadowStep_control (h : Shadow) (b : Byte) :
    shadowStep h (true, b) = some { h with cw := some b } := rfl

theorem shadowStep_data {h : Shadow} {c : Byte} (hcw : h.cw = some c) (b : Byte) :
    shadowStep h (false, b) = some { h with disp := cellWrite (dispTarget c) b h.disp } := by
  simp [shadowStep, hcw]

theorem shadowStep_data_refused {h : Shadow} (hcw : h.cw = none) (b : Byte) :
    shadowStep h (false, b) = none := by
  simp [shadowStep, hcw]

theorem shadowRun_cons {h h' : Shadow} {tx : Level × Byte} (hstep : shadowStep h tx = some h')
    (rest : List (Level × Byte)) : shadowRun h (tx :: rest) = shadowRun h' rest := by
  rw [shadowRun, hstep]

theorem shadowRun_cons_of_none {h : Shadow} {tx : Level × Byte} (hstep : shadowStep h tx = none)
    (rest : List (Level × Byte)) : shadowRun h (tx :: rest) = none := by
  rw [shadowRun, hstep]

/-- An accepted run goes on from the shadow it reached. -/
theorem shadowRun_append {h h' : Shadow} {txs : List (Level × Byte)} (hrun : shadowRun h txs = some h')
    (more : List (Level × Byte)) : shadowRun h (txs ++ more) = shadowRun h' more := by
  induction txs generalizing h with
  | nil =>
    cases hrun
    rfl
  | cons tx txs ih =>
    cases hstep : shadowStep h tx with
    | none => cases (shadowRun_cons_of_none hstep txs).symm.trans hrun
    | some h1 =>
      rw [shadowRun_cons hstep] at hrun
      rw [List.cons_append, shadowRun_cons hstep, ih hrun]

/-- What the observer does with one transaction keeps the memory's canonical form: a data word goes to
one of the sixteen cells. -/
theorem memory_wf_shadowStep {h h' : Shadow} {tx : Level × Byte} (hwf : Memory.wf h.disp = true)
    (hstep : shadowStep h tx = some h') : Memory.wf h'.disp = true := by
  obtain ⟨m, b⟩ := tx
  cases m with
  | true =>
    cases (shadowStep_control h b).symm.trans hstep
    exact hwf
  | false =>
    cases hcw : h.cw with
    | none => cases (shadowStep_data_refused hcw b).symm.trans hstep
    | some c =>
      cases (shadowStep_data hcw b).symm.trans hstep
      exact memory_wf_cellWrite (dispTarget_lt c) b hwf

theorem memory_wf_shadowRun {h h' : Shadow} {txs : List (Level × Byte)} (hwf : Memory.wf h.disp = true)
    (hrun : shadowRun h txs = some h') : Memory.wf h'.disp = true := by
  induction txs generalizing h with
  | nil =>
    cases hrun
    exact hwf
  | cons tx txs ih =>
    cases hstep : shadowStep h tx with
    | none => cases (shadowRun_cons_of_none hstep txs).symm.trans hrun
    | some h1 =>
      rw [shadowRun_cons hstep] at hrun
      exact ih (memory_wf_shadowStep hwf hstep) hrun

/-- Once a control word has been seen, every transaction is accepted and a control word stays known. -/
theorem shadowRun_ne_none {h : Shadow} {c : Byte} (hcw : h.cw = some c) (txs : List (Level × Byte)) :
    shadowRun h txs ≠ none := by
  induction txs generalizing h c with
  | nil => exact Option.some_ne_none h
  | cons tx txs ih =>
    obtain ⟨m, b⟩ := tx
    cases m with
    | true =>
      rw [shadowRun_cons (shadowStep_control h b)]
      exact ih rfl
    | false =>
      rw [shadowRun_cons (shadowStep_data hcw b)]
      exact ih hcw

/-- Two control words and a data word leave the later control word and the data word in its cell. -/
theorem shadowRun_control_control_data (h : Shadow) (c1 c2 b : Byte) :
    shadowRun h [(true, c1), (true, c2), (false, b)] =
      some { cw := some c2, disp := cellWrite (dispTarget c2) b h.disp } := rfl

/-- The cell of the `CS` that UPDATE_DIGIT leaves: the bank as before and the digit from `A` (R52). -/
theorem dispTarget_setdigit_setdec (c a : Byte) (m : ModeOperand) :
    dispTarget (setdigit (setdec c m) a) = 8 * (csBank c).toNat + a.toNat % 8 := by
  rw [dispTarget, dispAddress, (setdigit_setdec_keeps_bank_sd_dc c a m).1, csDigit_setdigit,
    csDigit_toNat]

/-- The shadow of a trace, through the trace's view. -/
theorem shadowOf_eq_some {tr : List Event} {h : Shadow} (hshadow : shadowOf tr = some h) :
    ∃ txs, txView tr = some txs ∧ shadowRun Shadow.reset txs = some h := by
  unfold shadowOf at hshadow
  split at hshadow
  case h_1 => cases hshadow
  case h_2 txs hview => exact ⟨txs, hview, hshadow⟩

/-- More transactions on a trace go on from its shadow. -/
theorem shadowOf_append_transactions {tr : List Event} {h : Shadow} (hshadow : shadowOf tr = some h)
    (more : List (Level × Byte)) : shadowOf (tr ++ transactions more) = shadowRun h more := by
  obtain ⟨txs, hview, hrun⟩ := shadowOf_eq_some hshadow
  rw [shadowOf, txView_append_transactions hview]
  exact shadowRun_append hrun more

end Sys2Proof.Machine

namespace Sys2Proof.Proofs

open Sys2Proof.Machine Sys2Proof.Safety

/-- Settles O54: by what the step does: a reset empties the trace, an idle step and DECODE_TYPE leave
it, and an instruction that is not raw ends with `CS` as the last control word. -/
theorem publicCommandsKeepTheChipTold : Obligations.PublicCommandsKeepTheChipTold := by
  intro s t hidle hidle' hstep hnotRaw htold
  obtain ⟨rest, -, rfl⟩ | ⟨cmd, i, hs, hseq, -⟩ | ⟨-, hs, -, rfl⟩ |
    ⟨-, c, i, rest, hhost, hdecode, hexec⟩ | ⟨-, _, i, rest, -, -, rfl⟩ := step_cases hstep
  case inl => exact ⟨[], rfl, .inl rfl⟩
  case inr.inl =>
    rw [hidle] at hseq
    cases hseq
  case inr.inr.inl => exact htold
  case inr.inr.inr.inl =>
    rw [eq_afterCommand_of_exec hexec]
    exact toldChipState_afterCommand (s := setHost rest s) (hnotRaw c rest i hhost hdecode) htold
  case inr.inr.inr.inr => exact toldChipState_acceptCommand (s := setHost rest s) hidle' htold

/-- Settles O55: the raw word is the last entry of the view and `CS` is untouched; the setter's own
entry then takes its place. -/
theorem rawControlWordDesynchronisesUntilTheNextSetter :
    Obligations.RawControlWordDesynchronisesUntilTheNextSetter := by
  intro a j s t u txs hview hne ht hj hu
  rw [exec_ctrlXact_eq_afterTransaction] at ht
  cases ht
  have hview' : txView (afterTransaction true a s).tr = some (txs ++ [(true, a)]) := by
    rw [afterTransaction, ← transactions_singleton]
    exact txView_append_transactions hview _
  have hviewU := txView_setter hj hview' hu
  refine ⟨rfl, ?differs, ⟨_, hviewU, .inr ?agrees⟩, ?grown⟩
  case differs =>
    rintro ⟨txs', htxs', htold⟩
    cases hview'.symm.trans htxs'
    rw [lastControl_append] at htold
    obtain hnone | hsome := htold
    · cases hnone
    · exact hne (Option.some.inj hsome)
  case grown =>
    rw [hviewU, List.append_assoc]
    rfl
  case agrees =>
    rw [lastControl_append]
    rfl

/-- Settles O56: the shadow goes on over UPDATE_DIGIT's three transactions, the last of which writes the
cell of the `CS` left. -/
theorem shadowShowsTheUpdatedDigit : Obligations.ShadowShowsTheUpdatedDigit := by
  intro a m v p s t before hbefore ht
  rw [exec_updateDigit_eq_transactions a m v p s _ _ _ rfl rfl rfl] at ht
  cases ht
  have hrun := shadowOf_append_transactions hbefore
  refine ⟨_, (hrun _).trans (shadowRun_control_control_data ..), rfl, ?_, ?_⟩
  · rw [← dispTarget_setdigit_setdec s.cs a m]
    exact cellRead_cellWrite_same ..
  · intro k hk
    rw [← dispTarget_setdigit_setdec s.cs a m] at hk
    exact cellRead_cellWrite_other hk ..

/-- Settles O57: an induction over the list, each data word written inside the sixteen cells. -/
theorem shadowMemoryStaysCanonical : Obligations.ShadowMemoryStaysCanonical :=
  ⟨memory_wf_reset, fun _ _ _ => memory_wf_shadowRun⟩

/-- Settles O58: the first transaction decides, since after a control word nothing is refused. -/
theorem shadowRefusesADataWordBeforeAnyControlWord :
    Obligations.ShadowRefusesADataWordBeforeAnyControlWord := by
  intro txs
  match txs with
  | [] => exact iff_of_false nofun nofun
  | (true, b) :: rest =>
    refine iff_of_false ?_ nofun
    rw [shadowRun_cons (shadowStep_control ..)]
    exact shadowRun_ne_none rfl rest
  | (false, b) :: rest =>
    exact iff_of_true (shadowRun_cons_of_none (shadowStep_data_refused rfl b) rest) ⟨b, rest, rfl⟩

end Sys2Proof.Proofs
end
